-- ==== Sys2Proof/Word.lean ====
section
/-!
DEFINITION. The one kind of datum of the core, the signed 64-bit Word (spec/00_scope.md R1), the wrap law (R2), and
the parts an instruction is made of besides its opcode: addressing modes (spec/30_encoding.md R53) and operands
(spec/40_step_and_operands.md section 2).
-/

namespace Sys2Proof

/-- R1: a signed integer of 64 bits in two's complement. Its value as an integer is `BitVec.toInt`. -/
abbrev Word := BitVec 64

/-- R2: the unique Word congruent to `z` modulo 2^64. -/
def wrap64 (z : Int) : Word := BitVec.ofInt 64 z

/-- R53: the three addressing modes. -/
inductive Mode where
  /-- mode digit 0: the raw word is an absolute address -/
  | position
  /-- mode digit 1: the raw word is the value itself -/
  | immediate
  /-- mode digit 2: the raw word is a signed offset added to rb -/
  | relative
deriving DecidableEq, Repr

/-- R57: an operand is the mode of its position and the raw operand word, any Word. -/
structure Operand where
  mode : Mode
  raw  : Word
deriving DecidableEq, Repr

end Sys2Proof
end

