-- ==== Sys2Proof/Config.lean ====
section
/-!
DEFINITION. The parameters of the core (spec/00_scope.md R3), and the free values of the model: the two environments that R3
leaves to oracles. Which environment is connected, and how far it has come, are fields of State (log entries 2 and 3,
DESIGN CHOICE). The spec leaves no result of an instruction open.
-/

namespace Sys2Proof

/-- R3: the width of a Word in bits, fixed. -/
abbrev Config.xlen : Nat := 64

/-- R3, R31: AMAX, the largest valid memory address, fixed. -/
def Config.amax : Nat := 2 ^ 63 - 1

/-- R3, R140: START_PC, at the default the spec gives. The operation `State.applyReset` takes any other (log entry 5, DESIGN CHOICE). -/
def Config.startPc : Word := 0#64

/-- R3, R141: IMAGE, here the empty image. The operation `State.loadImage` takes any other (log entry 5, DESIGN CHOICE). -/
def Config.image : List Word := []

/-- R3, R95 (decision D10): the answer that input environment `env` gives to its attempt number `n`, for ever: a value, or
none for `wait`. A free value: what is proved of it holds for every sequence of answers (log entry 2, DESIGN CHOICE).
A sequence with an `end` in it is finite before the end, and `InEnv` lists it. -/
opaque Config.inOracle (env n : Nat) : Option Word

/-- R3, R96 (decision D10): whether output environment `env` accepts the word of its attempt number `n`. A free value
(log entry 3, DESIGN CHOICE). -/
opaque Config.outOracle (env n : Nat) : Bool

end Sys2Proof
end

