-- ==== Sys2Proof/Machine/State.lean ====
section
/-!
DEFINITION. The state of the core (spec/10_state.md R10) with the environment at its two ports (spec/42_io.md R95, R96),
the reasons a step can stop, and the state after reset (R24). Plain data throughout.
-/

namespace Sys2Proof.Machine

/-- A cell of memory at an address: the unit of memory is one whole Word (spec/20_memory.md R35; log entry 1, DEDUCED). -/
abbrev Cell := Nat × Word

/-- `Mem` (R20): the cells that do not hold 0, addresses strictly rising (`Memory.wf` in Ops.lean); every other cell
of the address space holds 0 (R30). -/
abbrev Memory := List Cell

/-- R17. -/
inductive RunState where
  /-- the core takes steps -/
  | running
  /-- the run ended cleanly; left by reset only -/
  | halted
  /-- the run ended in error; left by reset only -/
  | faulted
deriving DecidableEq, Repr

/-- R120: the five faults of the core. -/
inductive FaultKind where
  | unknownOpcode
  | unknownMode
  | writeToImmediate
  | addressFault
  | inputExhausted
deriving DecidableEq, Repr

/-- R121: a fault on the way to being raised, `raise kind(val)`. -/
structure Trap where
  kind : FaultKind
  val  : Word
deriving DecidableEq, Repr

/-- R95: one answer of the input environment that is not `end`. -/
inductive InEvent where
  | value (v : Word)
  | wait
deriving DecidableEq, Repr

/-- R95: the three answers to `InRecv()`. -/
inductive InAnswer where
  | value (v : Word)
  | wait
  | ended
deriving DecidableEq, Repr

/-- R95: what the input environment answers for ever after the listed answers. -/
inductive InRest where
  /-- always `wait`: no word now, one may come later -/
  | waits
  /-- always `end`: no word now and none ever -/
  | ended
  /-- always the word `v` -/
  | repeats (v : Word)
  /-- anything at all but `end`: the answers of `Config.inOracle env`, from attempt number `n` on -/
  | oracle (env n : Nat)
deriving DecidableEq, Repr

/-- R95, R3: the input environment as the core meets it, an oracle: the answers it gives to the next receives, the next one
first, and to all later ones (log entry 2, DESIGN CHOICE). -/
structure InEnv where
  script : List InEvent
  rest   : InRest
deriving DecidableEq, Repr

/-- R96: the two answers to `OutSend(v)`. -/
inductive OutAnswer where
  | accept
  | wait
deriving DecidableEq, Repr

/-- R96: what the output environment answers for ever after the listed answers. -/
inductive OutRest where
  /-- always `accept` -/
  | accepts
  /-- always `wait` -/
  | waits
  /-- anything at all: the answers of `Config.outOracle env`, from attempt number `n` on -/
  | oracle (env n : Nat)
deriving DecidableEq, Repr

/-- R96, R3: the output environment as the core meets it, an oracle (log entry 3, DESIGN CHOICE). -/
structure OutEnv where
  script : List OutAnswer
  rest   : OutRest
deriving DecidableEq, Repr

/-- R10: the six items of architectural state, then the environment (log entries 2 and 3, DESIGN CHOICE). -/
@[ext]
structure State where
  /-- R12: the program counter -/
  pc        : Word
  /-- R15: the relative base -/
  rb        : Word
  /-- R17: run_state -/
  runState  : RunState
  /-- R18: cause, none for 0 (log entry 11, DESIGN CHOICE); its number is `State.causeCode` -/
  cause     : Option FaultKind
  /-- R19: fault_val -/
  faultVal  : Word
  /-- R20: Mem -/
  mem       : Memory
  /-- R95, model's own: what the input environment is going to answer -/
  inEnv     : InEnv
  /-- R96, model's own: what the output environment is going to answer -/
  outEnv    : OutEnv
  /-- R96, R99, model's own: the words the output environment has received, oldest first -/
  sent      : List Word
deriving DecidableEq, Repr

/-- Why a step answers the host's fault outcome: there is no such reason. Every fault of the spec is an entry into
FAULTED that the spec describes, so it is a next state (R121; log entry 8, DEDUCED); an access to memory that does not exist is
such a fault too (R34). The type has no constructor, so no step can answer a fault, which is safe. -/
inductive Fault : Type
deriving DecidableEq, Repr

/-- Why a step is refused. -/
inductive Refusal where
  /-- raised by an arm of `exec` whose instruction has no meaning yet; no arm raises it, every instruction of the
  opcode map has its meaning. Safe: the model would stop where the core goes on. -/
  | notModelled (mnemonic : String)
deriving DecidableEq, Repr

/-- R24, R140: the core right after reset, with START_PC and IMAGE at the parameters' defaults (the empty image lists
no cell), and an environment that supplies no input word and accepts every output word (log entries 4 and 5, DESIGN CHOICE). -/
def State.reset : State where
  pc        := Config.startPc
  rb        := 0#64
  runState  := .running
  cause     := none
  faultVal  := 0#64
  mem       := []
  inEnv     := ⟨[], .ended⟩
  outEnv    := ⟨[], .accepts⟩
  sent      := []

end Sys2Proof.Machine
end

