-- ==== Sys2Proof/Machine/Ops.lean ====
section
/-!
DEFINITION. The named operations over memory, ports and registers: the memory map (spec/20_memory.md R30 to R34), fault
entry (spec/60_exceptions.md R121), the commit of a next-pc (spec/40_step_and_operands.md R79, R80), and one receive or
send on a port (spec/42_io.md R95, R96).
-/

namespace Sys2Proof.Machine

/-! ### Memory as data -/

/-- R30: the Word in a cell; a cell not listed holds 0. -/
def Memory.read : Memory → Nat → Word
  | [], _ => 0#64
  | (k, w) :: m, a => if k = a then w else Memory.read m a

/-- The memory with every entry for `a` taken out, so that cell `a` holds 0. -/
def Memory.erase : Memory → Nat → Memory
  | [], _ => []
  | (k, w) :: m, a => if k = a then Memory.erase m a else (k, w) :: Memory.erase m a

/-- The memory with an entry for `a`, in address order. -/
def Memory.insert : Memory → Nat → Word → Memory
  | [], a, v => [(a, v)]
  | (k, w) :: m, a, v =>
    if a < k then (a, v) :: (k, w) :: m
    else if a = k then (a, v) :: m
    else (k, w) :: Memory.insert m a v

/-- R33: `Mem[a] <- v`. Writing 0 takes the entry out, so that equal memories are equal lists. -/
def Memory.write (m : Memory) (a : Nat) (v : Word) : Memory :=
  if v = 0#64 then m.erase a else m.insert a v

/-- The canonical form from address `lo` on: addresses strictly rising and at most AMAX, no entry holding 0. -/
def Memory.wfFrom : Nat → Memory → Bool
  | _, [] => true
  | lo, (k, w) :: m => decide (lo ≤ k) && decide (k ≤ Config.amax) && decide (w ≠ 0#64) && Memory.wfFrom (k + 1) m

/-- The canonical form of a memory. -/
def Memory.wf (m : Memory) : Bool := Memory.wfFrom 0 m

/-- The image `vs` placed at addresses `a`, `a + 1`, ...; words past AMAX have no cell and are dropped (log entry 16,
DESIGN CHOICE). -/
def Memory.ofImageFrom : Nat → List Word → Memory
  | _, [] => []
  | a, v :: vs =>
    if v ≠ 0#64 ∧ a ≤ Config.amax then (a, v) :: Memory.ofImageFrom (a + 1) vs else Memory.ofImageFrom (a + 1) vs

/-- R141: the memory that holds an image at address 0 upward and 0 everywhere else. -/
def Memory.ofImage (vs : List Word) : Memory := Memory.ofImageFrom 0 vs

/-! ### Memory as the core reaches it -/

/-- R32, R34: `MemRead(addr, 1)`. -/
def State.memRead (s : State) (addr : Word) : Except Trap Word :=
  if addr.toInt < 0 then .error ⟨.addressFault, addr⟩ else .ok (s.mem.read addr.toNat)

/-- R33, R34: `MemWrite(addr, 1, v)`. -/
def State.memWrite (s : State) (addr v : Word) : Except Trap State :=
  if addr.toInt < 0 then .error ⟨.addressFault, addr⟩ else .ok { s with mem := s.mem.write addr.toNat v }

/-- Words placed at `addr`, `addr + 1`, ... where these are addresses, a negative one being passed over (log entry 17,
DESIGN CHOICE); what the host's placing of an instruction does. -/
def State.placeWords (s : State) (addr : Word) : List Word → State
  | [] => s
  | v :: vs =>
    State.placeWords (if addr.toInt < 0 then s else { s with mem := s.mem.write addr.toNat v })
      (wrap64 (addr.toInt + 1)) vs

/-! ### Taking a fault, and the commit -/

/-- R120: the code of a fault in `cause`. -/
def FaultKind.code : FaultKind → Nat
  | .unknownOpcode => 1
  | .unknownMode => 2
  | .writeToImmediate => 3
  | .addressFault => 4
  | .inputExhausted => 5

/-- R18, R120: `cause` as its number; 0 means no fault. -/
def State.causeCode (s : State) : Nat :=
  match s.cause with
  | none => 0
  | some k => k.code

/-- R121: fault entry. It does this and nothing more; there is no return from it but reset (R129). -/
def State.raise (s : State) (t : Trap) : State :=
  { s with runState := .faulted, cause := some t.kind, faultVal := t.val }

/-- R79: the next-pc that ends the run. -/
def haltSentinel : Word := wrap64 (-1)

/-- R79: the commit of a next-pc. -/
def State.commit (s : State) (next : Word) : State :=
  if next = haltSentinel then { s with runState := .halted } else { s with pc := next }

/-- R80: the address of the word after an instruction of `size` words at pc. -/
def State.seqPc (s : State) (size : Nat) : Word := wrap64 (s.pc.toInt + size)

/-! ### The ports -/

/-- R95: an answer that is not `end`, as an answer. -/
def InEvent.answer : InEvent → InAnswer
  | .value v => .value v
  | .wait => .wait

/-- R95: the answer to the receive `k` places after the listed answers. -/
def InRest.answerAt : InRest → Nat → InAnswer
  | .waits, _ => .wait
  | .ended, _ => .ended
  | .repeats v, _ => .value v
  | .oracle env n, k =>
    match Config.inOracle env (n + k) with
    | some v => .value v
    | none => .wait

/-- What is left of the later answers once one of them is given. -/
def InRest.next : InRest → InRest
  | .waits => .waits
  | .ended => .ended
  | .repeats v => .repeats v
  | .oracle env n => .oracle env (n + 1)

/-- R95: the answer the next receive gets. -/
def InEnv.answer (e : InEnv) : InAnswer :=
  match e.script with
  | x :: _ => x.answer
  | [] => e.rest.answerAt 0

/-- R95: the environment once that answer is given. A value is consumed; a `wait` takes no word, only its own place among
the answers (log entries 2 and 7, DESIGN CHOICE); `end` changes nothing. -/
def InEnv.next (e : InEnv) : InEnv :=
  match e.script with
  | _ :: xs => { e with script := xs }
  | [] => { e with rest := e.rest.next }

/-- R96: the answer to the send `k` places after the listed answers. -/
def OutRest.answerAt : OutRest → Nat → OutAnswer
  | .accepts, _ => .accept
  | .waits, _ => .wait
  | .oracle env n, k => if Config.outOracle env (n + k) then .accept else .wait

/-- What is left of the later answers once one of them is given. -/
def OutRest.next : OutRest → OutRest
  | .accepts => .accepts
  | .waits => .waits
  | .oracle env n => .oracle env (n + 1)

/-- R96: the answer the next send gets, whatever word it sends (log entry 3, DESIGN CHOICE). -/
def OutEnv.answer (e : OutEnv) : OutAnswer :=
  match e.script with
  | x :: _ => x
  | [] => e.rest.answerAt 0

/-- R96: the environment once that answer is given (log entries 3 and 7, DESIGN CHOICE). -/
def OutEnv.next (e : OutEnv) : OutEnv :=
  match e.script with
  | _ :: xs => { e with script := xs }
  | [] => { e with rest := e.rest.next }

/-- R95: `InRecv()`, its answer and the state in which the environment has moved on. -/
def State.inRecv (s : State) : InAnswer × State := (s.inEnv.answer, { s with inEnv := s.inEnv.next })

/-- R96: `OutSend(v)`, its answer and the state in which the environment has moved on. An accepted word is appended to
the received words; a `wait` delivers nothing. -/
def State.outSend (s : State) (v : Word) : OutAnswer × State :=
  match s.outEnv.answer with
  | .accept => (.accept, { s with outEnv := s.outEnv.next, sent := s.sent ++ [v] })
  | .wait => (.wait, { s with outEnv := s.outEnv.next })

end Sys2Proof.Machine
end

