-- ==== Sys2Proof/Machine/Flags.lean ====
section
/-!
DEFINITION. The results the ALU computes (spec/41_arithmetic.md R92). The core has no flags (spec/10_state.md R16): a
comparison's result is an ordinary Word, 1 or 0 (spec/44_compare.md), and a jump tests a Word against zero.
-/

namespace Sys2Proof.Machine

/-- R2, R90: the exact sum, wrapped. -/
def aluAdd (a b : Word) : Word := wrap64 (a.toInt + b.toInt)

/-- R2, R91: the exact signed product, wrapped. -/
def aluMul (a b : Word) : Word := wrap64 (a.toInt * b.toInt)

/-- R105: the exact signed comparison, as 1 or 0. -/
def aluLt (a b : Word) : Word := if a.toInt < b.toInt then 1#64 else 0#64

/-- R106: equality of the two Words, as 1 or 0. -/
def aluEq (a b : Word) : Word := if a = b then 1#64 else 0#64

/-- R100: "true" is any Word other than 0. -/
def wordTrue (a : Word) : Bool := decide (a ≠ 0#64)

/-- R101: "false" is the Word 0 and nothing else. -/
def wordFalse (a : Word) : Bool := decide (a = 0#64)

end Sys2Proof.Machine
end

