-- ==== Sys2Proof/Machine/Operands.lean ====
section
/-!
DEFINITION. The operand resolver (spec/40_step_and_operands.md R75 to R77) and the two shapes every execute stage is
made of: reading a source before going on, and storing a result and advancing (R78, R79, R81).
-/

namespace Sys2Proof.Machine

/-- R75: the effective address of a position or relative operand; an immediate has none. -/
def State.opAddr (s : State) (o : Operand) : Option Word :=
  match o.mode with
  | .position => some o.raw
  | .immediate => none
  | .relative => some (wrap64 (s.rb.toInt + o.raw.toInt))

/-- R76: the value of a source operand. -/
def State.opRead (s : State) (o : Operand) : Except Trap Word :=
  match s.opAddr o with
  | none => .ok o.raw
  | some ea => s.memRead ea

/-- R77: the store to a destination operand. -/
def State.opWrite (s : State) (o : Operand) (v : Word) : Except Trap State :=
  match s.opAddr o with
  | none => .error ⟨.writeToImmediate, o.raw⟩
  | some ea => s.memWrite ea v

/-- Reads source `o` and goes on with its value; a fault of the read ends the step (R78, R81). -/
def withSource (s : State) (o : Operand) (k : Word → Host.Outcome State Fault Refusal) :
    Host.Outcome State Fault Refusal :=
  match s.opRead o with
  | .error t => .next (s.raise t)
  | .ok v => k v

/-- Stores `v` to destination `o` and advances past the instruction's `size` words; a fault of the store ends the
step with nothing stored (R77, R79, R80, R81). -/
def storeAndAdvance (s : State) (o : Operand) (v : Word) (size : Nat) : Host.Outcome State Fault Refusal :=
  match s.opWrite o v with
  | .error t => .next (s.raise t)
  | .ok s' => .next (s'.commit (s'.seqPc size))

/-- The common shape of add, mul, lt and eq (R90, R91, R105, R106): sources a then b, then the result to c, four
words. -/
def execBinary (f : Word → Word → Word) (a b c : Operand) (s : State) : Host.Outcome State Fault Refusal :=
  withSource s a fun x => withSource s b fun y => storeAndAdvance s c (f x y) 4

/-- The common shape of jit and jif (R100, R101): condition a then target b, both always read (R78), three words. -/
def execJump (taken : Word → Bool) (a b : Operand) (s : State) : Host.Outcome State Fault Refusal :=
  withSource s a fun x => withSource s b fun y => .next (s.commit (if taken x then y else s.seqPc 3))

end Sys2Proof.Machine
end

