-- ==== Sys2Proof/Machine/Arithmetic.lean ====
section
/-!
DEFINITION. add and mul (spec/41_arithmetic.md).
-/

namespace Sys2Proof.Machine

/-- R90. -/
def execAdd (a b c : Operand) (s : State) : Host.Outcome State Fault Refusal := execBinary aluAdd a b c s

/-- R91. -/
def execMul (a b c : Operand) (s : State) : Host.Outcome State Fault Refusal := execBinary aluMul a b c s

end Sys2Proof.Machine
end

