-- ==== Sys2Proof/Machine/Compare.lean ====
section
/-!
DEFINITION. lt and eq (spec/44_compare.md).
-/

namespace Sys2Proof.Machine

/-- R105. -/
def execLt (a b c : Operand) (s : State) : Host.Outcome State Fault Refusal := execBinary aluLt a b c s

/-- R106. -/
def execEq (a b c : Operand) (s : State) : Host.Outcome State Fault Refusal := execBinary aluEq a b c s

end Sys2Proof.Machine
end

