-- ==== Sys2Proof/Machine/Halt.lean ====
section
/-!
DEFINITION. hlt (spec/46_halt.md).
-/

namespace Sys2Proof.Machine

/-- R113: the next-pc is the halt sentinel, whatever pc is. -/
def execHlt (s : State) : Host.Outcome State Fault Refusal := .next (s.commit haltSentinel)

end Sys2Proof.Machine
end

