-- ==== Sys2Proof/Machine/InputOutput.lean ====
section
/-!
DEFINITION. in and out (spec/42_io.md).
-/

namespace Sys2Proof.Machine

/-- R97: the receive comes before the destination is looked at, so a word is consumed even when the write faults. A
`wait` stalls the step: the core is unchanged and the step is attempted again (R82; log entry 7, DESIGN CHOICE). -/
def execIn (a : Operand) (s : State) : Host.Outcome State Fault Refusal :=
  match s.inRecv with
  | (.wait, s') => .next s'
  | (.ended, s') => .next (s'.raise ⟨.inputExhausted, 0#64⟩)
  | (.value v, s') => storeAndAdvance s' a v 2

/-- R98: the operand is read before the send, and nothing can fault after it. -/
def execOut (a : Operand) (s : State) : Host.Outcome State Fault Refusal :=
  withSource s a fun x =>
    match s.outSend x with
    | (.wait, s') => .next s'
    | (.accept, s') => .next (s'.commit (s'.seqPc 2))

end Sys2Proof.Machine
end

