-- ==== Sys2Proof/Machine/Jump.lean ====
section
/-!
DEFINITION. jit and jif (spec/43_jump.md). The target is not checked here (R102).
-/

namespace Sys2Proof.Machine

/-- R100. -/
def execJit (a b : Operand) (s : State) : Host.Outcome State Fault Refusal := execJump wordTrue a b s

/-- R101. -/
def execJif (a b : Operand) (s : State) : Host.Outcome State Fault Refusal := execJump wordFalse a b s

end Sys2Proof.Machine
end

