-- ==== Sys2Proof/Machine/RelBase.lean ====
section
/-!
DEFINITION. srb (spec/45_relbase.md).
-/

namespace Sys2Proof.Machine

/-- R110: the operand is read at the old rb and added to it. -/
def execSrb (a : Operand) (s : State) : Host.Outcome State Fault Refusal :=
  withSource s a fun x => .next (State.commit { s with rb := aluAdd s.rb x } (s.seqPc 2))

end Sys2Proof.Machine
end

