-- ==== Sys2Proof/Syntax.lean ====
section
/-!
DEFINITION. The ten instructions of the opcode map (spec/30_encoding.md R55), one constructor per row of
spec/opcode_table.json, with one operand per operand word in the order a, b, c (R50, R58). The mode fields an
instruction does not use have no place here: R54 gives them no effect (log entry 10, DEDUCED).
-/

namespace Sys2Proof

inductive Instr where
  /-- opcode 1, `add a, b, c` (R90) -/
  | add (a b c : Operand)
  /-- opcode 2, `mul a, b, c` (R91) -/
  | mul (a b c : Operand)
  /-- opcode 3, `in a` (R97) -/
  | inp (a : Operand)
  /-- opcode 4, `out a` (R98) -/
  | out (a : Operand)
  /-- opcode 5, `jit a, b` (R100) -/
  | jit (a b : Operand)
  /-- opcode 6, `jif a, b` (R101) -/
  | jif (a b : Operand)
  /-- opcode 7, `lt a, b, c` (R105) -/
  | lt (a b c : Operand)
  /-- opcode 8, `eq a, b, c` (R106) -/
  | eq (a b c : Operand)
  /-- opcode 9, `srb a` (R110) -/
  | srb (a : Operand)
  /-- opcode 99, `hlt` (R113) -/
  | hlt
deriving DecidableEq, Repr

end Sys2Proof
end

