-- ==== Sys2Proof/Machine/Dispatch.lean ====
section
/-!
DEFINITION. The execute stage of a decoded instruction (spec/40_step_and_operands.md R74), one arm per instruction. It is
the execute stage of a RUNNING core; whether a step is enabled is for `step` to say (R70; log entry 9, DESIGN CHOICE).
-/

namespace Sys2Proof.Machine

def exec (i : Instr) (s : State) : Host.Outcome State Fault Refusal :=
  match i with
  | .add a b c => Sys2Proof.Machine.execAdd a b c s
  | .mul a b c => Sys2Proof.Machine.execMul a b c s
  | .inp a => Sys2Proof.Machine.execIn a s
  | .out a => Sys2Proof.Machine.execOut a s
  | .jit a b => Sys2Proof.Machine.execJit a b s
  | .jif a b => Sys2Proof.Machine.execJif a b s
  | .lt a b c => Sys2Proof.Machine.execLt a b c s
  | .eq a b c => Sys2Proof.Machine.execEq a b c s
  | .srb a => Sys2Proof.Machine.execSrb a s
  | .hlt => Sys2Proof.Machine.execHlt s

end Sys2Proof.Machine
end

