-- ==== Sys2Proof/WellFormed.lean ====
section
/-!
DEFINITION. Well-formedness of an instruction split into its parts: the opcode and mode fields of spec/30_encoding.md R51
and the operand words of R50. `Instr` itself admits only legal modes and the right number of operands; what can be ill
formed is the split form, and `Instr.split` (Decode.lean) has every instruction checked through it.
-/

namespace Sys2Proof

/-- R50, R51: the fields of an opcode word and the operand words that follow it. -/
structure SplitInstr where
  opcode   : Nat
  m1       : Nat
  m2       : Nat
  m3       : Nat
  operands : List Word
deriving DecidableEq, Repr

/-- R53, R54: each of the three mode fields is 0, 1 or 2, whatever the arity. -/
def SplitInstr.modesLegal (x : SplitInstr) : Bool :=
  decide (x.m1 ≤ 2) && decide (x.m2 ≤ 2) && decide (x.m3 ≤ 2)

/-- R55: the opcode field is one of 1 to 9 or 99. -/
def SplitInstr.opcodeLegal (x : SplitInstr) : Bool :=
  (decide (1 ≤ x.opcode) && decide (x.opcode ≤ 9)) || x.opcode == 99

/-- R55, the arity column: 3 for 1, 2, 7, 8; 2 for 5, 6; 1 for 3, 4, 9; 0 otherwise. -/
def SplitInstr.arityOf (opcode : Nat) : Nat :=
  if opcode = 1 ∨ opcode = 2 ∨ opcode = 7 ∨ opcode = 8 then 3
  else if opcode = 5 ∨ opcode = 6 then 2
  else if opcode = 3 ∨ opcode = 4 ∨ opcode = 9 then 1
  else 0

/-- R50: as many operand words as the arity of the opcode. -/
def SplitInstr.operandCount (x : SplitInstr) : Bool :=
  x.operands.length == SplitInstr.arityOf x.opcode

/-- All three checks. A destination of mode 1 is well formed: it decodes, and faults when written (R58). -/
def SplitInstr.wellFormed (x : SplitInstr) : Bool :=
  x.modesLegal && x.opcodeLegal && x.operandCount

end Sys2Proof
end

