-- ==== Sys2Proof/Decode.lean ====
section
/-!
DEFINITION. The decoder (spec/30_encoding.md R51 to R62), total on every list of Words and rejecting by name, then the
encoder written from the same tables (R51, R55, R63), and the host's reading of a table row's word.
-/

namespace Sys2Proof

/-- R55: the ten opcodes. -/
inductive Opcode where
  | add | mul | inp | out | jit | jif | lt | eq | srb | hlt
deriving DecidableEq, Repr

/-- R61: why a Word is no opcode word. -/
inductive HeadError where
  /-- R52, R60: negative word, or an opcode field outside the map; carries the word -/
  | unknownOpcode (w : Word)
  /-- R53: a mode field above 2; carries the word -/
  | unknownMode (w : Word)
deriving DecidableEq, Repr

/-- Why a list of Words does not begin with an instruction. -/
inductive DecodeError where
  /-- the first word is no opcode word -/
  | head (e : HeadError)
  /-- fewer words than the instruction has; a list given to `decode` can be so, the core's own fetch cannot
  (log entry 15, DESIGN CHOICE) -/
  | truncated
deriving DecidableEq, Repr

/-- What an opcode word says: the opcode and the modes of operands a, b, c (R51). -/
structure Head where
  op : Opcode
  m1 : Mode
  m2 : Mode
  m3 : Mode
deriving DecidableEq, Repr

/-! ### Fields of the opcode word (R51), for a non-negative word -/

/-- R51: the two lowest decimal digits. -/
def fieldOpcode (w : Nat) : Nat := w % 100

/-- R51: the hundreds digit. -/
def fieldM1 (w : Nat) : Nat := w / 100 % 10

/-- R51: the thousands digit. -/
def fieldM2 (w : Nat) : Nat := w / 1000 % 10

/-- R51: the ten-thousands digit and everything above it. -/
def fieldM3 (w : Nat) : Nat := w / 10000

/-- R53: the meaning of a mode field; none for any other value. -/
def Mode.ofField : Nat → Option Mode
  | 0 => some .position
  | 1 => some .immediate
  | 2 => some .relative
  | _ => none

/-- R53: the mode field that stands for a mode. -/
def Mode.toField : Mode → Nat
  | .position => 0
  | .immediate => 1
  | .relative => 2

/-- R55: the opcode an opcode field selects; none outside the map (R60). -/
def Opcode.ofField : Nat → Option Opcode
  | 1 => some .add
  | 2 => some .mul
  | 3 => some .inp
  | 4 => some .out
  | 5 => some .jit
  | 6 => some .jif
  | 7 => some .lt
  | 8 => some .eq
  | 9 => some .srb
  | 99 => some .hlt
  | _ => none

/-- R55: the opcode column. -/
def Opcode.toField : Opcode → Nat
  | .add => 1
  | .mul => 2
  | .inp => 3
  | .out => 4
  | .jit => 5
  | .jif => 6
  | .lt => 7
  | .eq => 8
  | .srb => 9
  | .hlt => 99

/-- R55, R56: the arity column, the number of operand words. -/
def Opcode.arity : Opcode → Nat
  | .add | .mul | .lt | .eq => 3
  | .jit | .jif => 2
  | .inp | .out | .srb => 1
  | .hlt => 0

/-- R61: the three checks on the opcode word, in their order. -/
def decodeHead (w : Word) : Except HeadError Head :=
  if w.toInt < 0 then .error (.unknownOpcode w)
  else
    match Mode.ofField (fieldM1 w.toNat), Mode.ofField (fieldM2 w.toNat), Mode.ofField (fieldM3 w.toNat) with
    | some m1, some m2, some m3 =>
      match Opcode.ofField (fieldOpcode w.toNat) with
      | some op => .ok ⟨op, m1, m2, m3⟩
      | none => .error (.unknownOpcode w)
    | _, _, _ => .error (.unknownMode w)

/-- R50, R57: the instruction a legal opcode word makes with the operand words that follow it; each raw word takes the
mode of its position. Only the first `arity` words are used. -/
def Head.assemble (h : Head) (ws : List Word) : Instr :=
  let a : Operand := ⟨h.m1, ws.getD 0 0⟩
  let b : Operand := ⟨h.m2, ws.getD 1 0⟩
  let c : Operand := ⟨h.m3, ws.getD 2 0⟩
  match h.op with
  | .add => .add a b c
  | .mul => .mul a b c
  | .inp => .inp a
  | .out => .out a
  | .jit => .jit a b
  | .jif => .jif a b
  | .lt => .lt a b c
  | .eq => .eq a b c
  | .srb => .srb a
  | .hlt => .hlt

/-- The instruction at the front of a list of Words, with the words after it (R50, R59, R62). -/
def decode : List Word → Except DecodeError (Instr × List Word)
  | [] => .error .truncated
  | w :: ws =>
    match decodeHead w with
    | .error e => .error (.head e)
    | .ok h => if ws.length < h.op.arity then .error .truncated else .ok (h.assemble ws, ws.drop h.op.arity)

/-! ### The encoder -/

/-- R55, R58: the opcode, mode fields and operand words of an instruction; 0 in every mode field the instruction does
not use, which makes the canonical opcode word (R63). -/
def Instr.split : Instr → SplitInstr
  | .add a b c => ⟨1, a.mode.toField, b.mode.toField, c.mode.toField, [a.raw, b.raw, c.raw]⟩
  | .mul a b c => ⟨2, a.mode.toField, b.mode.toField, c.mode.toField, [a.raw, b.raw, c.raw]⟩
  | .inp a => ⟨3, a.mode.toField, 0, 0, [a.raw]⟩
  | .out a => ⟨4, a.mode.toField, 0, 0, [a.raw]⟩
  | .jit a b => ⟨5, a.mode.toField, b.mode.toField, 0, [a.raw, b.raw]⟩
  | .jif a b => ⟨6, a.mode.toField, b.mode.toField, 0, [a.raw, b.raw]⟩
  | .lt a b c => ⟨7, a.mode.toField, b.mode.toField, c.mode.toField, [a.raw, b.raw, c.raw]⟩
  | .eq a b c => ⟨8, a.mode.toField, b.mode.toField, c.mode.toField, [a.raw, b.raw, c.raw]⟩
  | .srb a => ⟨9, a.mode.toField, 0, 0, [a.raw]⟩
  | .hlt => ⟨99, 0, 0, 0, []⟩

/-- Every instruction is checked through its split form (WellFormed.lean). -/
def Instr.wellFormed (i : Instr) : Bool := i.split.wellFormed

/-- R51: the opcode word with these fields. -/
def opcodeWord (opcode m1 m2 m3 : Nat) : Word :=
  BitVec.ofNat 64 (opcode + 100 * m1 + 1000 * m2 + 10000 * m3)

/-- The opcode word that says a head, unused mode fields included. -/
def Head.toWord (h : Head) : Word :=
  opcodeWord h.op.toField h.m1.toField h.m2.toField h.m3.toField

/-- R50, R63: the words of an instruction, its canonical opcode word first. -/
def encode (i : Instr) : List Word :=
  opcodeWord i.split.opcode i.split.m1 i.split.m2 i.split.m3 :: i.split.operands

/-- R50: the size of an instruction in words. -/
def Instr.size (i : Instr) : Nat := (encode i).length

/-! ### The host's numbering of a table row's bits -/

/-- The four Words (the longest instruction, R50) of an instruction whose bits are `w`: bits 63 to 0 are the first Word,
the next 64 bits the second, and so on; every bit from `nbits` up is 0 (log entry 15, DESIGN CHOICE). -/
def tableWords (nbits w : Nat) : List Word :=
  let v := w % 2 ^ nbits
  [BitVec.ofNat 64 v, BitVec.ofNat 64 (v / 2 ^ 64), BitVec.ofNat 64 (v / 2 ^ 128), BitVec.ofNat 64 (v / 2 ^ 192)]

/-- What `decode` reads from an instruction whose bits are `w`. -/
def decodeTableWord (nbits w : Nat) : Option Instr :=
  match decode (tableWords nbits w) with
  | .ok (i, _) => some i
  | .error _ => none

end Sys2Proof
end

