-- ==== Sys2Proof/Machine/Fetch.lean ====
section
/-!
DEFINITION. Fetch, decode and operand fetch (spec/40_step_and_operands.md R71 to R73), with their faults in the order of
spec/60_exceptions.md R127 items 1 to 5.
-/

namespace Sys2Proof.Machine

/-- R73: the address of the word `k` places after the opcode word. -/
def State.wordAddr (s : State) (k : Nat) : Word := wrap64 (s.pc.toInt + k)

/-- R73: `n` consecutive words of the instruction at pc, from the one `k` places after the opcode word on. -/
def State.fetchWords (s : State) (k : Nat) : Nat → Except Trap (List Word)
  | 0 => .ok []
  | n + 1 =>
    match s.memRead (s.wordAddr k) with
    | .error t => .error t
    | .ok w =>
      match State.fetchWords s (k + 1) n with
      | .error t => .error t
      | .ok ws => .ok (w :: ws)

/-- R122, R123: the fault that a failed check on the opcode word raises. -/
def headTrap : HeadError → Trap
  | .unknownOpcode w => ⟨.unknownOpcode, w⟩
  | .unknownMode w => ⟨.unknownMode, w⟩

/-- R71, R72, R73: the instruction at pc, or the fault met on the way to it. -/
def State.fetchInstr (s : State) : Except Trap Instr :=
  match s.memRead s.pc with
  | .error t => .error t
  | .ok w =>
    match decodeHead w with
    | .error e => .error (headTrap e)
    | .ok h =>
      match s.fetchWords 1 h.op.arity with
      | .error t => .error t
      | .ok ws => .ok (h.assemble ws)

end Sys2Proof.Machine
end

