-- ==== Sys2Proof/Machine/Step.lean ====
section
/-!
DEFINITION. The step (spec/40_step_and_operands.md R70, R85): one instruction of a RUNNING core, and the host's placing of
an instruction where the next step fetches.
-/

namespace Sys2Proof.Machine

/-- R70, R85: a RUNNING core fetches, decodes and executes the instruction at pc; a fault on the way is taken (R81).
HALTED and FAULTED are terminal (R17, R114, R129): nothing changes (log entry 6, DESIGN CHOICE). -/
def step (s : State) : Host.Outcome State Fault Refusal :=
  match s.runState with
  | .running =>
    match s.fetchInstr with
    | .error t => .next (s.raise t)
    | .ok i => exec i s
  | .halted => .next s
  | .faulted => .next s

/-- The four Words of `tableWords` placed at pc and after it, the host's loading of an instruction (R141; log entries 5,
15 and 17, DESIGN CHOICE). -/
def State.withFetchWord (s : State) (nbits w : Nat) : State := s.placeWords s.pc (tableWords nbits w)

end Sys2Proof.Machine
end

