-- ==== Sys2Proof/Machine/Boot.lean ====
section
/-!
DEFINITION. What the host does around a run (spec/70_reset_and_hazards.md R140, R141, R143). These are operations on the
state, not steps of the core (log entry 12, DESIGN CHOICE).
-/

namespace Sys2Proof.Machine

/-- R141: the host places a fresh image in Mem. -/
def State.loadImage (s : State) (image : List Word) : State := { s with mem := Memory.ofImage image }

/-- R140: reset, in any state, with the START_PC the host supplies. Mem and the environment are not touched. -/
def State.applyReset (s : State) (startPc : Word) : State :=
  { s with pc := startPc, rb := 0#64, runState := .running, cause := none, faultVal := 0#64 }

/-- R3, R95, R96: the host connects an input and an output environment; the new output environment has received nothing. -/
def State.connect (s : State) (input : InEnv) (output : OutEnv) : State :=
  { s with inEnv := input, outEnv := output, sent := [] }

/-- R3, R140, R141: the start of a run at the four parameters that R3 leaves to the host: image placed, environments
connected, reset released. -/
def State.boot (s : State) (image : List Word) (startPc : Word) (input : InEnv) (output : OutEnv) : State :=
  ((s.loadImage image).connect input output).applyReset startPc

end Sys2Proof.Machine
end

