-- ==== Sys2Proof/Safety.lean ====
section
/-!
DEFINITION. The terms claims are made in: when an operand can be read or written and what it denotes
(spec/40_step_and_operands.md R75 to R77), the relations between the status registers and the rest of the state
(spec/10_state.md R17 to R19, spec/60_exceptions.md R122 to R126), the invariant of the machine, and the words still to
arrive on the input port (spec/42_io.md R99).
-/

namespace Sys2Proof.Machine

/-! ### Operands -/

/-- R76: reading source `o` raises no fault: an immediate, or a non-negative effective address. -/
def State.readable (s : State) (o : Operand) : Bool :=
  match s.opAddr o with
  | none => true
  | some ea => decide (0 ≤ ea.toInt)

/-- R76: the value source `o` has when it is readable. -/
def State.sourceValue (s : State) (o : Operand) : Word :=
  match s.opAddr o with
  | none => o.raw
  | some ea => s.mem.read ea.toNat

/-- R77: the cell a store to destination `o` writes; none where the store faults (an immediate, or a negative effective
address). -/
def State.destCell (s : State) (o : Operand) : Option Nat :=
  match s.opAddr o with
  | none => none
  | some ea => if 0 ≤ ea.toInt then some ea.toNat else none

end Sys2Proof.Machine

namespace Sys2Proof

/-- R58: the destination operand of an instruction, where it has one. -/
def Instr.dest : Instr → Option Operand
  | .add _ _ c | .mul _ _ c | .lt _ _ c | .eq _ _ c => some c
  | .inp a => some a
  | .out _ | .jit _ _ | .jif _ _ | .srb _ | .hlt => none

end Sys2Proof

namespace Sys2Proof.Machine

/-! ### Status -/

/-- R19, R122 to R126: what pc, fault_val and Mem say about the fault that stopped the core. -/
def State.FaultReport (s : State) : FaultKind → Prop
  | .unknownOpcode =>
    0 ≤ s.pc.toInt ∧ s.faultVal = s.mem.read s.pc.toNat ∧ decodeHead s.faultVal = .error (.unknownOpcode s.faultVal)
  | .unknownMode =>
    0 ≤ s.pc.toInt ∧ s.faultVal = s.mem.read s.pc.toNat ∧ decodeHead s.faultVal = .error (.unknownMode s.faultVal)
  | .writeToImmediate =>
    0 ≤ s.pc.toInt ∧
      (s.faultVal = s.mem.read (s.wordAddr 1).toNat ∨ s.faultVal = s.mem.read (s.wordAddr 3).toNat)
  | .addressFault => s.faultVal.toInt < 0
  | .inputExhausted => 0 ≤ s.pc.toInt ∧ s.faultVal = 0#64

/-- R17, R18, R19: the status registers agree with one another and with the rest of the state. -/
def State.StatusConsistent (s : State) : Prop :=
  match s.runState with
  | .running => s.cause = none ∧ s.faultVal = 0#64
  | .halted => s.cause = none ∧ s.faultVal = 0#64 ∧ 0 ≤ s.pc.toInt
  | .faulted => ∃ k, s.cause = some k ∧ s.FaultReport k

/-- The invariant of the machine: memory in canonical form, status registers consistent. -/
def State.Inv (s : State) : Prop := s.mem.wf = true ∧ s.StatusConsistent

/-- `n` steps one after another; the machine's own name for what `Host.Core.run` does (`runSteps_eq_core_run`,
Laws/Operands.lean). -/
def runSteps : Nat → State → Host.Outcome State Fault Refusal
  | 0, s => .next s
  | n + 1, s =>
    match step s with
    | .next t => runSteps n t
    | .fault r => .fault r
    | .refused r => .refused r

/-- A safe run ends in no fault (R129, R144). -/
def State.Safe (s : State) : Prop := s.runState ≠ .faulted

/-! ### Ports -/

/-- R95: the answer the next `InRecv()` gets. -/
def State.inAnswer (s : State) : InAnswer := s.inEnv.answer

/-- R96: the answer the next `OutSend(v)` gets, whatever v. -/
def State.outAnswer (s : State) : OutAnswer := s.outEnv.answer

/-- R95: the answer to the receive `k` places from now; an environment is the sequence of these. -/
def InEnv.answerAt (e : InEnv) (k : Nat) : InAnswer :=
  match e.script[k]? with
  | some x => x.answer
  | none => e.rest.answerAt (k - e.script.length)

/-- R96: the answer to the send `k` places from now. -/
def OutEnv.answerAt (e : OutEnv) (k : Nat) : OutAnswer :=
  match e.script[k]? with
  | some x => x
  | none => e.rest.answerAt (k - e.script.length)

/-- R99: the words among the first `n` answers to come, in order. -/
def InEnv.words (e : InEnv) (n : Nat) : List Word :=
  (List.range n).filterMap fun k =>
    match e.answerAt k with
    | .value v => some v
    | .wait => none
    | .ended => none

/-- R99: the words the step from `s` delivers on the output port: the operand's value of an out that completes. -/
def State.stepSends (s : State) : List Word :=
  match s.runState, s.fetchInstr with
  | .running, .ok (.out a) => if s.readable a = true ∧ s.outAnswer = .accept then [s.sourceValue a] else []
  | _, _ => []

/-- R99: the words the step from `s` receives on the input port: the word of an in that gets one. -/
def State.stepReceives (s : State) : List Word :=
  match s.runState, s.fetchInstr, s.inAnswer with
  | .running, .ok (.inp _), .value v => [v]
  | _, _, _ => []

/-- R99: the words `n` steps from `s` deliver, in order. -/
def runSends : Nat → State → List Word
  | 0, _ => []
  | n + 1, s =>
    match step s with
    | .next t => s.stepSends ++ runSends n t
    | .fault _ => s.stepSends
    | .refused _ => s.stepSends

/-- R99: the words `n` steps from `s` receive, in order. -/
def runReceives : Nat → State → List Word
  | 0, _ => []
  | n + 1, s =>
    match step s with
    | .next t => s.stepReceives ++ runReceives n t
    | .fault _ => s.stepReceives
    | .refused _ => s.stepReceives

/-- R84: `f` gives the answers of `e` with some of the waits left out: `pick` says which answer of `e` each one is. -/
def InEnv.SameButForWaits (e f : InEnv) : Prop :=
  ∃ pick : Nat → Nat, StrictMono pick ∧ (∀ k, f.answerAt k = e.answerAt (pick k)) ∧
    ∀ n, (∀ k, pick k ≠ n) → e.answerAt n = .wait

/-- R84: the same of output environments. -/
def OutEnv.SameButForWaits (e f : OutEnv) : Prop :=
  ∃ pick : Nat → Nat, StrictMono pick ∧ (∀ k, f.answerAt k = e.answerAt (pick k)) ∧
    ∀ n, (∀ k, pick k ≠ n) → e.answerAt n = .wait

/-- R84: the environment with every listed `wait` left out. -/
def InEnv.withoutWaits (e : InEnv) : InEnv := { e with script := e.script.filter fun x => decide (x ≠ .wait) }

/-- R84: the environment with every listed `wait` left out. -/
def OutEnv.withoutWaits (e : OutEnv) : OutEnv := { e with script := e.script.filter fun x => decide (x ≠ .wait) }

/-- R84: the same state in environments that give the same answers with every listed `wait` left out. -/
def State.withoutWaits (s : State) : State :=
  { s with inEnv := s.inEnv.withoutWaits, outEnv := s.outEnv.withoutWaits }

end Sys2Proof.Machine
end

