-- ==== Sys2Proof/Certificates/Slice0/Obligations.lean ====
section
/-!
DEFINITION. The statements for the provers, one definition each. What a statement says is the spec's rule it names; where
it rests on a choice of the spec (a decision D<n> of spec/92_eei_decisions.md) or of the model (a log entry), its
docstring says so. A hypothesis `0 ≤ s.pc.toInt` is what a completed fetch gives (40 R71, R80).
-/

open Sys2Proof Sys2Proof.Machine

/-! ### Words and arithmetic -/

/-- R2 (decision D1): `wrap64 z` is the unique Word congruent to `z` modulo 2^64. -/
def Obligations.WrapIsTheUniqueCongruentWord : Prop :=
  ∀ (z : Int) (w : Word), wrap64 z = w ↔ ∃ k : Int, w.toInt = z + k * 2 ^ 64

/-- R2, R92 (decision D1): the ALU's sum and product are the exact integer results modulo 2^64, and so obey the laws of the
ring of integers modulo 2^64, neutral elements and inverses included. -/
def Obligations.AluObeysTheRingLaws : Prop :=
  ∀ a b c : Word,
    (∃ k : Int, (aluAdd a b).toInt = a.toInt + b.toInt + k * 2 ^ 64) ∧
      (∃ k : Int, (aluMul a b).toInt = a.toInt * b.toInt + k * 2 ^ 64) ∧
      aluAdd a b = aluAdd b a ∧ aluMul a b = aluMul b a ∧
      aluAdd (aluAdd a b) c = aluAdd a (aluAdd b c) ∧ aluMul (aluMul a b) c = aluMul a (aluMul b c) ∧
      aluMul a (aluAdd b c) = aluAdd (aluMul a b) (aluMul a c) ∧
      aluAdd a 0#64 = a ∧ aluMul a 1#64 = a ∧ aluAdd a (aluMul a (wrap64 (-1))) = 0#64

/-- R14, R80 (decisions D1, D2): the sequential next pc from a non-negative pc is exact below the top of memory,
negative past it, and never the halt sentinel. -/
def Obligations.SequentialPcNeverWrapsToAnAddress : Prop :=
  ∀ (s : State) (n : Nat), 0 ≤ s.pc.toInt → 1 ≤ n → n ≤ 4 →
    (s.pc.toInt + n ≤ Config.amax → (s.seqPc n).toInt = s.pc.toInt + n) ∧
      ((Config.amax : Int) < s.pc.toInt + n → (s.seqPc n).toInt < -1)

/-! ### Decoding and encoding -/

/-- Words of spec/95_test_vectors.md and their instructions (R51, R53, R55), and words that are none (R60, R61; log
entry 18 for the negative ones and those above 99999). -/
def Obligations.SampleWordsDecode : Prop :=
  decode [1, 9, 10, 3] = .ok (.add ⟨.position, 9⟩ ⟨.position, 10⟩ ⟨.position, 3⟩, []) ∧
    decode [21101, 3, 4, 0] = .ok (.add ⟨.immediate, 3⟩ ⟨.immediate, 4⟩ ⟨.relative, 0⟩, []) ∧
    decode [1002, 4, 3, 4] = .ok (.mul ⟨.position, 4⟩ ⟨.immediate, 3⟩ ⟨.position, 4⟩, []) ∧
    decode [203, 2] = .ok (.inp ⟨.relative, 2⟩, []) ∧
    decode [204, wrap64 (-2)] = .ok (.out ⟨.relative, wrap64 (-2)⟩, []) ∧
    decode [1205, 0, 2] = .ok (.jit ⟨.relative, 0⟩ ⟨.immediate, 2⟩, []) ∧
    decode [1006, 101, 0] = .ok (.jif ⟨.position, 101⟩ ⟨.immediate, 0⟩, []) ∧
    decode [1107, wrap64 (-1), 8, 3] = .ok (.lt ⟨.immediate, wrap64 (-1)⟩ ⟨.immediate, 8⟩ ⟨.position, 3⟩, []) ∧
    decode [1008, 100, 16, 101] = .ok (.eq ⟨.position, 100⟩ ⟨.immediate, 16⟩ ⟨.position, 101⟩, []) ∧
    decode [109, 7] = .ok (.srb ⟨.immediate, 7⟩, []) ∧
    decode [22299] = .ok (.hlt, []) ∧
    decode [0] = .error (.head (.unknownOpcode 0)) ∧
    decode [wrap64 (-99)] = .error (.head (.unknownOpcode (wrap64 (-99)))) ∧
    decode [399] = .error (.head (.unknownMode 399)) ∧
    decode [377] = .error (.head (.unknownMode 377)) ∧
    decode [100001] = .error (.head (.unknownMode 100001))

/-- R50, R51, R55, R57: decoding the words of any instruction, whatever words follow, gives the instruction back, every
operand word at every value. -/
def Obligations.DecodeOfEncodeIsTheInstruction : Prop :=
  ∀ (i : Instr) (rest : List Word), decode (encode i ++ rest) = .ok (i, rest)

/-- R51, R53, R55: a Word decodes to an opcode and three modes exactly when it is the opcode word made of their digits, so
no two rows of the opcode map overlap. -/
def Obligations.OpcodeWordsAndHeadsCorrespond : Prop :=
  ∀ (w : Word) (h : Head), decodeHead w = .ok h ↔ w = h.toWord

/-- R63: there are 270 legal opcode words, from 1 to 22299. -/
def Obligations.ExactlyTwoHundredSeventyOpcodeWords : Prop :=
  ∃ ws : List Word, ws.Nodup ∧ ws.length = 270 ∧ (∀ w, w ∈ ws ↔ ∃ h, decodeHead w = .ok h) ∧
    (1 : Word) ∈ ws ∧ (22299 : Word) ∈ ws ∧ ∀ w ∈ ws, 1 ≤ w.toInt ∧ w.toInt ≤ 22299

/-- R62 (decisions D4, D6): the outcome of every Word as an opcode word; the four cases exclude one another. -/
def Obligations.EveryWordHasItsDecodeOutcome : Prop :=
  ∀ w : Word,
    (w.toInt < 0 → decodeHead w = .error (.unknownOpcode w)) ∧
      (0 ≤ w.toInt → (2 < w.toInt / 100 % 10 ∨ 2 < w.toInt / 1000 % 10 ∨ 2 < w.toInt / 10000) →
        decodeHead w = .error (.unknownMode w)) ∧
      (0 ≤ w.toInt → w.toInt / 100 % 10 ≤ 2 → w.toInt / 1000 % 10 ≤ 2 → w.toInt / 10000 ≤ 2 →
        ¬ ((1 ≤ w.toInt % 100 ∧ w.toInt % 100 ≤ 9) ∨ w.toInt % 100 = 99) →
        decodeHead w = .error (.unknownOpcode w)) ∧
      (0 ≤ w.toInt → w.toInt / 100 % 10 ≤ 2 → w.toInt / 1000 % 10 ≤ 2 → w.toInt / 10000 ≤ 2 →
        ((1 ≤ w.toInt % 100 ∧ w.toInt % 100 ≤ 9) ∨ w.toInt % 100 = 99) →
        ∃ h, decodeHead w = .ok h ∧ (h.op.toField : Int) = w.toInt % 100 ∧
          (h.m1.toField : Int) = w.toInt / 100 % 10 ∧ (h.m2.toField : Int) = w.toInt / 1000 % 10 ∧
          (h.m3.toField : Int) = w.toInt / 10000)

/-- R54 (decision D5): a legal mode field of an operand the instruction does not have has no effect. -/
def Obligations.UnusedModeFieldsHaveNoEffect : Prop :=
  ∀ (op : Opcode) (m1 m2 m3 : Mode) (ws : List Word),
    (op.arity ≤ 2 → decode (Head.toWord ⟨op, m1, m2, m3⟩ :: ws) = decode (Head.toWord ⟨op, m1, m2, .position⟩ :: ws)) ∧
      (op.arity ≤ 1 →
        decode (Head.toWord ⟨op, m1, m2, m3⟩ :: ws) = decode (Head.toWord ⟨op, m1, .position, .position⟩ :: ws)) ∧
      (op.arity = 0 →
        decode (Head.toWord ⟨op, m1, m2, m3⟩ :: ws) =
          decode (Head.toWord ⟨op, .position, .position, .position⟩ :: ws))

/-- R50, R57: decoding takes exactly the operand words that follow and changes none of them. -/
def Obligations.DecodingKeepsEveryOperandWord : Prop :=
  ∀ (w : Word) (ws rest : List Word) (i : Instr), decode (w :: ws) = .ok (i, rest) → (encode i).tail ++ rest = ws

/-! ### Memory -/

/-- R32 and R33: the contracts of a read and of a write, over every address. -/
def Obligations.MemoryReadAndWriteContract : Prop :=
  ∀ (s : State) (addr v : Word),
    (addr.toInt < 0 → s.memRead addr = .error ⟨.addressFault, addr⟩ ∧ s.memWrite addr v = .error ⟨.addressFault, addr⟩) ∧
      (0 ≤ addr.toInt → s.memRead addr = .ok (s.mem.read addr.toNat) ∧
        ∃ t, s.memWrite addr v = .ok t ∧ t = { s with mem := t.mem } ∧
          ∀ b : Word, 0 ≤ b.toInt → t.memRead b = if b = addr then .ok v else s.memRead b)

/-- R3, R30, R141 (decisions D10, D12): a placed image stands at addresses 0 upward and every other cell reads 0, an image
word past AMAX having no cell (log entry 16); the environments are the ones the host gives (log entries 2, 3); and what
the core held before has no influence. -/
def Obligations.ImageIsPlacedFromAddressZero : Prop :=
  ∀ (s : State) (image : List Word) (startPc : Word) (input : InEnv) (output : OutEnv),
    (∀ a : Nat, (s.boot image startPc input output).mem.read a =
        if a ≤ Config.amax then image.getD a 0#64 else 0#64) ∧
      (s.boot image startPc input output).inEnv = input ∧ (s.boot image startPc input output).outEnv = output ∧
      ∀ s' : State, s'.boot image startPc input output = s.boot image startPc input output

/-- R22, R45: the instruction a step fetches is a function of pc and of Mem as it stands, and of nothing else. -/
def Obligations.FetchSeesOnlyPcAndMemory : Prop :=
  ∀ s t : State, s.pc = t.pc → s.mem = t.mem → s.fetchInstr = t.fetchInstr

/-! ### The operand resolver -/

/-- R76: the value of a source operand in each mode, and the fault of a negative effective address. -/
def Obligations.OperandReadByMode : Prop :=
  ∀ (s : State) (r : Word),
    s.opRead ⟨.immediate, r⟩ = .ok r ∧ s.opRead ⟨.position, r⟩ = s.memRead r ∧
      s.opRead ⟨.relative, r⟩ = s.memRead (wrap64 (s.rb.toInt + r.toInt)) ∧
      (r.toInt < 0 → s.opRead ⟨.position, r⟩ = .error ⟨.addressFault, r⟩) ∧
      ((wrap64 (s.rb.toInt + r.toInt)).toInt < 0 →
        s.opRead ⟨.relative, r⟩ = .error ⟨.addressFault, wrap64 (s.rb.toInt + r.toInt)⟩)

/-- R77: the store to a destination operand in each mode. -/
def Obligations.OperandWriteByMode : Prop :=
  ∀ (s : State) (r v : Word),
    s.opWrite ⟨.immediate, r⟩ v = .error ⟨.writeToImmediate, r⟩ ∧ s.opWrite ⟨.position, r⟩ v = s.memWrite r v ∧
      s.opWrite ⟨.relative, r⟩ v = s.memWrite (wrap64 (s.rb.toInt + r.toInt)) v

/-! ### Results: where each instruction completes -/

/-- R90 (decision D1): add stores the wrapped sum in c's cell and advances by 4; nothing else changes. -/
def Obligations.AddStoresTheWrappedSum : Prop :=
  ∀ (s : State) (a b c : Operand) (d : Nat),
    0 ≤ s.pc.toInt → s.readable a = true → s.readable b = true → s.destCell c = some d →
    exec (.add a b c) s = .next { s with
      mem := s.mem.write d (wrap64 ((s.sourceValue a).toInt + (s.sourceValue b).toInt))
      pc := wrap64 (s.pc.toInt + 4) }

/-- R91 (decision D1): mul stores the wrapped signed product in c's cell and advances by 4; nothing else changes. -/
def Obligations.MulStoresTheWrappedProduct : Prop :=
  ∀ (s : State) (a b c : Operand) (d : Nat),
    0 ≤ s.pc.toInt → s.readable a = true → s.readable b = true → s.destCell c = some d →
    exec (.mul a b c) s = .next { s with
      mem := s.mem.write d (wrap64 ((s.sourceValue a).toInt * (s.sourceValue b).toInt))
      pc := wrap64 (s.pc.toInt + 4) }

/-- R105: lt stores 1 where a is less than b as signed integers, else 0, and advances by 4; nothing else changes. -/
def Obligations.LtStoresTheSignedComparison : Prop :=
  ∀ (s : State) (a b c : Operand) (d : Nat),
    0 ≤ s.pc.toInt → s.readable a = true → s.readable b = true → s.destCell c = some d →
    exec (.lt a b c) s = .next { s with
      mem := s.mem.write d (if (s.sourceValue a).toInt < (s.sourceValue b).toInt then 1#64 else 0#64)
      pc := wrap64 (s.pc.toInt + 4) }

/-- R106: eq stores 1 where a equals b, else 0, and advances by 4; nothing else changes. -/
def Obligations.EqStoresTheEquality : Prop :=
  ∀ (s : State) (a b c : Operand) (d : Nat),
    0 ≤ s.pc.toInt → s.readable a = true → s.readable b = true → s.destCell c = some d →
    exec (.eq a b c) s = .next { s with
      mem := s.mem.write d (if s.sourceValue a = s.sourceValue b then 1#64 else 0#64)
      pc := wrap64 (s.pc.toInt + 4) }

/-- R97, R95 (decision D10; log entry 2): in takes the next input word into a's cell and advances by 2; nothing else
changes. -/
def Obligations.InStoresTheNextInputWord : Prop :=
  ∀ (s : State) (a : Operand) (d : Nat) (v : Word),
    0 ≤ s.pc.toInt → s.inAnswer = .value v → s.destCell a = some d →
    exec (.inp a) s = .next { s with
      inEnv := s.inEnv.next
      mem := s.mem.write d v
      pc := wrap64 (s.pc.toInt + 2) }

/-- R98, R96 (decision D10; log entry 3): out sends its operand's value when the environment accepts, and advances by 2;
nothing else changes. -/
def Obligations.OutSendsItsOperand : Prop :=
  ∀ (s : State) (a : Operand),
    0 ≤ s.pc.toInt → s.readable a = true → s.outAnswer = .accept →
    exec (.out a) s = .next { s with
      outEnv := s.outEnv.next
      sent := s.sent ++ [s.sourceValue a]
      pc := wrap64 (s.pc.toInt + 2) }

/-- R100, R102 (decision D11 for the target -1): jit jumps to b's value when a is not 0, a target of -1 halting the core
with pc unchanged, and else advances by 3; nothing else changes. -/
def Obligations.JitJumpsWhenNonZero : Prop :=
  ∀ (s : State) (a b : Operand), 0 ≤ s.pc.toInt → s.readable a = true → s.readable b = true →
    exec (.jit a b) s = .next
      (if s.sourceValue a ≠ 0#64 then
        (if (s.sourceValue b).toInt = -1 then { s with runState := .halted } else { s with pc := s.sourceValue b })
      else { s with pc := wrap64 (s.pc.toInt + 3) })

/-- R101, R102 (decision D11 for the target -1): jif jumps to b's value when a is 0, a target of -1 halting the core with
pc unchanged, and else advances by 3; nothing else changes. -/
def Obligations.JifJumpsWhenZero : Prop :=
  ∀ (s : State) (a b : Operand), 0 ≤ s.pc.toInt → s.readable a = true → s.readable b = true →
    exec (.jif a b) s = .next
      (if s.sourceValue a = 0#64 then
        (if (s.sourceValue b).toInt = -1 then { s with runState := .halted } else { s with pc := s.sourceValue b })
      else { s with pc := wrap64 (s.pc.toInt + 3) })

/-- R110, R2 (decision D1 for the wrap): srb adds its operand, read at the old rb, to rb and advances by 2; nothing else
changes. -/
def Obligations.SrbAddsToTheRelativeBase : Prop :=
  ∀ (s : State) (a : Operand), 0 ≤ s.pc.toInt → s.readable a = true →
    exec (.srb a) s = .next { s with
      rb := wrap64 (s.rb.toInt + (s.sourceValue a).toInt)
      pc := wrap64 (s.pc.toInt + 2) }

/-- R113: hlt, in every state, halts the core and changes nothing but run_state. -/
def Obligations.HltHaltsAndKeepsThePc : Prop :=
  ∀ s : State, exec .hlt s = .next { s with runState := .halted }

/-- R79: the commit of a next-pc. -1 halts with pc kept, whatever produced it (hlt, or a taken jit or jif); any other
value goes to pc and run_state stays, and a negative one other than -1 faults at the following fetch. -/
def Obligations.CommitTreatsMinusOneAsHalt : Prop :=
  (∀ (s : State) (next : Word), s.commit next =
    if next.toInt = -1 then { s with runState := .halted } else { s with pc := next }) ∧
    (∀ s : State, exec .hlt s = .next (s.commit (wrap64 (-1)))) ∧
    (∀ (s : State) (a b : Operand), s.readable a = true → s.readable b = true →
      (s.sourceValue a ≠ 0#64 → exec (.jit a b) s = .next (s.commit (s.sourceValue b))) ∧
        (s.sourceValue a = 0#64 → exec (.jif a b) s = .next (s.commit (s.sourceValue b)))) ∧
    ∀ (s : State) (next : Word), s.runState = .running → next.toInt < -1 →
      step (s.commit next) = .next (State.raise { s with pc := next } ⟨.addressFault, next⟩)

/-! ### Faults and waits of the execute stage -/

/-- R121, R120, R18 (decision D8 for the codes and the form; log entry 11): fault entry sets the three status registers
and nothing else. -/
def Obligations.FaultEntrySetsOnlyTheStatus : Prop :=
  ∀ (s : State) (k : FaultKind) (v : Word),
    s.raise ⟨k, v⟩ = { s with runState := .faulted, cause := some k, faultVal := v } ∧
      (s.raise ⟨.unknownOpcode, v⟩).causeCode = 1 ∧ (s.raise ⟨.unknownMode, v⟩).causeCode = 2 ∧
      (s.raise ⟨.writeToImmediate, v⟩).causeCode = 3 ∧ (s.raise ⟨.addressFault, v⟩).causeCode = 4 ∧
      (s.raise ⟨.inputExhausted, v⟩).causeCode = 5 ∧ State.reset.causeCode = 0

/-- R90, R91, R105, R106, R127 items 6, 7, 9, 10 (decisions D3, D7): the faults of add, mul, lt and eq in their order. -/
def Obligations.ThreeOperandFaultsInOrder : Prop :=
  ∀ (s : State) (a b c : Operand), ∀ i ∈ [Instr.add a b c, Instr.mul a b c, Instr.lt a b c, Instr.eq a b c],
    (∀ ea, s.opAddr a = some ea → ea.toInt < 0 → exec i s = .next (s.raise ⟨.addressFault, ea⟩)) ∧
      (∀ ea, s.readable a = true → s.opAddr b = some ea → ea.toInt < 0 →
        exec i s = .next (s.raise ⟨.addressFault, ea⟩)) ∧
      (s.readable a = true → s.readable b = true → c.mode = .immediate →
        exec i s = .next (s.raise ⟨.writeToImmediate, c.raw⟩)) ∧
      (∀ ea, s.readable a = true → s.readable b = true → s.opAddr c = some ea → ea.toInt < 0 →
        exec i s = .next (s.raise ⟨.addressFault, ea⟩))

/-- R98, R100, R101, R110, R78 (decisions D3, D7): out, srb, jit and jif fault on an unreadable a, and the jumps on an
unreadable b whether or not they are taken; nothing is sent and rb is unchanged. -/
def Obligations.SourceFaultsOfOutSrbAndJumps : Prop :=
  ∀ (s : State) (a b : Operand) (ea : Word), ea.toInt < 0 →
    (s.opAddr a = some ea →
      ∀ i ∈ [Instr.out a, Instr.srb a, Instr.jit a b, Instr.jif a b], exec i s = .next (s.raise ⟨.addressFault, ea⟩)) ∧
      (s.readable a = true → s.opAddr b = some ea →
        ∀ i ∈ [Instr.jit a b, Instr.jif a b], exec i s = .next (s.raise ⟨.addressFault, ea⟩))

/-- R124: WriteToImmediate, raised at the write with the raw word: by add, mul, lt and eq after both sources were read,
by in after an input word was consumed. -/
def Obligations.ImmediateDestinationFaults : Prop :=
  ∀ (s : State) (c : Operand), c.mode = .immediate →
    (∀ v, s.opWrite c v = .error ⟨.writeToImmediate, c.raw⟩) ∧
      (∀ a b, s.readable a = true → s.readable b = true →
        ∀ i ∈ [Instr.add a b c, Instr.mul a b c, Instr.lt a b c, Instr.eq a b c],
          exec i s = .next (s.raise ⟨.writeToImmediate, c.raw⟩)) ∧
      ∀ v, s.inAnswer = .value v →
        exec (.inp c) s = .next (State.raise { s with inEnv := s.inEnv.next } ⟨.writeToImmediate, c.raw⟩)

/-- R97, R81 (decisions D3, D9; log entry 2): an in whose effective address is negative has consumed its input word when it
faults. -/
def Obligations.InConsumesItsWordBeforeAnAddressFault : Prop :=
  ∀ (s : State) (a : Operand) (v ea : Word), s.inAnswer = .value v → s.opAddr a = some ea → ea.toInt < 0 →
    exec (.inp a) s = .next (State.raise { s with inEnv := s.inEnv.next } ⟨.addressFault, ea⟩)

/-- R126: in raises InputExhausted with fault_val 0 when the environment answers end, whatever its destination. -/
def Obligations.EndOfInputFaults : Prop :=
  ∀ (s : State) (a : Operand), s.inAnswer = .ended →
    exec (.inp a) s = .next (s.raise ⟨.inputExhausted, 0#64⟩)

/-- R82, R97, R98 (decisions D10, D14; log entries 2, 3, 7): a wait answer changes nothing but that it is now given: no
register, no cell, no word taken, none delivered. -/
def Obligations.WaitAnswersStall : Prop :=
  ∀ (s : State) (a : Operand),
    (s.inAnswer = .wait →
      exec (.inp a) s = .next { s with inEnv := s.inEnv.next } ∧ ∀ n, s.inEnv.words (n + 1) = s.inEnv.next.words n) ∧
      (s.readable a = true → s.outAnswer = .wait →
        exec (.out a) s = .next { s with outEnv := s.outEnv.next })

/-- R95, R96 (decision D10; log entries 2, 3): the ports ask the environments for their answers in order, each once; `end`
is for good and changes nothing; and every sequence of answers in which `end` is for good is one that some environment
of the model gives, whole if it ends and to any length if it does not. -/
def Obligations.PortAnswersComeInOrder : Prop :=
  (∀ s : State, s.inRecv = (s.inEnv.answerAt 0, { s with inEnv := s.inEnv.next }) ∧
      ∀ v, s.outSend v =
        (s.outEnv.answerAt 0, { s with
          outEnv := s.outEnv.next
          sent := if s.outEnv.answerAt 0 = .accept then s.sent ++ [v] else s.sent })) ∧
    (∀ (e : InEnv) (k : Nat), e.next.answerAt k = e.answerAt (k + 1) ∧
      (e.answerAt k = .ended → e.answerAt (k + 1) = .ended) ∧ (e.answerAt 0 = .ended → e.next = e)) ∧
    (∀ (e : OutEnv) (k : Nat), e.next.answerAt k = e.answerAt (k + 1)) ∧
    (∀ f : Nat → InAnswer, (∀ k, f k = .ended → f (k + 1) = .ended) →
      ((∃ k, f k = .ended) → ∃ e : InEnv, ∀ k, e.answerAt k = f k) ∧
        ∀ n, ∃ e : InEnv, ∀ k < n, e.answerAt k = f k) ∧
    (∀ (f : Nat → OutAnswer) (n : Nat), ∃ e : OutEnv, ∀ k < n, e.answerAt k = f k)

/-- R95, R126, R3 (decision D10; log entry 2): in an environment that never answers `end` no run raises InputExhausted,
however long it is, and the environment left never answers `end` either. -/
def Obligations.EndlessInputNeverExhausts : Prop :=
  ∀ (k : Nat) (s t : State), (∀ j, s.inEnv.answerAt j ≠ .ended) → s.cause ≠ some .inputExhausted →
    runSteps k s = .next t → t.cause ≠ some .inputExhausted ∧ ∀ j, t.inEnv.answerAt j ≠ .ended

/-! ### The step -/

/-- R70 to R74, R85: when the words at pc are those of instruction i, a RUNNING core's step is exec of i, with nothing
around it. -/
def Obligations.StepRunsTheDecodedInstruction : Prop :=
  ∀ (s : State) (i : Instr), s.runState = .running → 0 ≤ s.pc.toInt → s.pc.toInt + i.size ≤ Config.amax + 1 →
    decode ((List.range i.size).map fun k => s.mem.read (s.pc.toNat + k)) = .ok (i, []) → i.wellFormed = true →
    step s = exec i s

/-- R50, R71 to R73, R45: an instruction whose encoding has just been placed at pc is the one the next step runs. -/
def Obligations.EncodedInstructionRunsWherePlaced : Prop :=
  ∀ (s : State) (i : Instr), s.runState = .running → 0 ≤ s.pc.toInt → s.pc.toInt + i.size ≤ Config.amax + 1 →
    step (s.placeWords s.pc (encode i)) = exec i (s.placeWords s.pc (encode i))

/-- The host's placing of a table row's word (log entry 15): the next step runs what the decoder reads from it. -/
def Obligations.TableWordRunsWherePlaced : Prop :=
  ∀ (s : State) (nbits w : Nat) (i : Instr),
    s.runState = .running → 0 ≤ s.pc.toInt → s.pc.toInt + 4 ≤ Config.amax + 1 → decodeTableWord nbits w = some i →
    step (s.withFetchWord nbits w) = exec i (s.withFetchWord nbits w)

/-- R71: the fetch at a negative pc raises AddressFault(pc); a cell that reads 0 fails decode with UnknownOpcode. -/
def Obligations.FetchFaults : Prop :=
  ∀ s : State, s.runState = .running →
    (s.pc.toInt < 0 → step s = .next (s.raise ⟨.addressFault, s.pc⟩)) ∧
      (0 ≤ s.pc.toInt → s.mem.read s.pc.toNat = 0#64 → step s = .next (s.raise ⟨.unknownOpcode, 0#64⟩))

/-- R122: UnknownOpcode, with the opcode word as fault_val and pc at its address. -/
def Obligations.UnknownOpcodeFaults : Prop :=
  ∀ (s : State) (w : Word), s.runState = .running → 0 ≤ s.pc.toInt → s.mem.read s.pc.toNat = w →
    (w.toInt < 0 ∨
      (0 ≤ w.toInt ∧ w.toInt / 100 % 10 ≤ 2 ∧ w.toInt / 1000 % 10 ≤ 2 ∧ w.toInt / 10000 ≤ 2 ∧
        ¬ ((1 ≤ w.toInt % 100 ∧ w.toInt % 100 ≤ 9) ∨ w.toInt % 100 = 99))) →
    step s = .next (s.raise ⟨.unknownOpcode, w⟩)

/-- R123: UnknownMode, whatever the opcode field and its arity, with the opcode word as fault_val and pc at its
address. -/
def Obligations.UnknownModeFaults : Prop :=
  ∀ (s : State) (w : Word), s.runState = .running → 0 ≤ s.pc.toInt → s.mem.read s.pc.toNat = w → 0 ≤ w.toInt →
    (2 < w.toInt / 100 % 10 ∨ 2 < w.toInt / 1000 % 10 ∨ 2 < w.toInt / 10000) →
    step s = .next (s.raise ⟨.unknownMode, w⟩)

/-- R73, R14 (decisions D1, D2, D3): an instruction whose operand words run past AMAX raises AddressFault at the first
of them, whose address is -2^63. -/
def Obligations.OperandFetchPastTheTopFaults : Prop :=
  ∀ (s : State) (h : Head), s.runState = .running → 0 ≤ s.pc.toInt →
    decodeHead (s.mem.read s.pc.toNat) = .ok h → (Config.amax : Int) < s.pc.toInt + h.op.arity →
    step s = .next (s.raise ⟨.addressFault, wrap64 (-2 ^ 63)⟩)

/-- R102 (decision D11): a taken jump to a value below -1 is committed to pc, and the next step faults there. -/
def Obligations.JumpBelowMinusOneFaultsAtTheNextFetch : Prop :=
  ∀ (s : State) (a b : Operand), s.runState = .running → s.readable a = true → s.readable b = true →
    (s.sourceValue b).toInt < -1 →
    ((s.fetchInstr = .ok (.jit a b) ∧ s.sourceValue a ≠ 0#64) ∨ (s.fetchInstr = .ok (.jif a b) ∧ s.sourceValue a = 0#64)) →
    runSteps 2 s = .next (State.raise { s with pc := s.sourceValue b } ⟨.addressFault, s.sourceValue b⟩)

/-- R102, R148: a taken jump to its own address is an endless loop that changes no state. -/
def Obligations.JumpToItselfLoopsForEver : Prop :=
  ∀ (s : State) (a b : Operand) (k : Nat), s.runState = .running → s.readable a = true → s.readable b = true →
    s.sourceValue b = s.pc →
    ((s.fetchInstr = .ok (.jit a b) ∧ s.sourceValue a ≠ 0#64) ∨ (s.fetchInstr = .ok (.jif a b) ∧ s.sourceValue a = 0#64)) →
    runSteps k s = .next s

/-- R147 (log entries 2, 3, 7): a port that answers wait for ever, in whatever way the environment is given, stalls the core
for ever with no change to it; where the environment is the one that always waits, with no change at all. -/
def Obligations.EndlessWaitStallsForEver : Prop :=
  ∀ (s : State) (a : Operand) (k : Nat), s.runState = .running →
    (s.fetchInstr = .ok (.inp a) → s.inEnv = ⟨[], .waits⟩ → runSteps k s = .next s) ∧
      (s.fetchInstr = .ok (.out a) → s.readable a = true → s.outEnv = ⟨[], .waits⟩ → runSteps k s = .next s) ∧
      (s.fetchInstr = .ok (.inp a) → (∀ j, s.inEnv.answerAt j = .wait) →
        ∃ e, runSteps k s = .next { s with inEnv := e }) ∧
      (s.fetchInstr = .ok (.out a) → s.readable a = true → (∀ j, s.outEnv.answerAt j = .wait) →
        ∃ e, runSteps k s = .next { s with outEnv := e })

/-- R17, R114, R129 (decision D13; log entry 6): HALTED and FAULTED are terminal, nothing changes any more. -/
def Obligations.HaltedAndFaultedAreTerminal : Prop :=
  ∀ (s : State) (k : Nat), s.runState ≠ .running → runSteps k s = .next s

/-- Every step answers a next state: no state, instruction or operand stops the model by a fault or a refusal (R62, R70;
log entries 6, 7, 8). -/
def Obligations.EveryStepAnswersANextState : Prop :=
  ∀ s : State, ∃ t, step s = .next t

/-! ### Frames -/

/-- R25, R11, R15, R20 (log entries 2, 3): what exec leaves unchanged, for all ten instructions: every cell but the one a
destination operand names, rb but for srb, the input port but for in, the output port but for out, and the status
registers cause and fault_val but by a fault, which keeps pc. -/
def Obligations.ExecChangesOnlyWhatTheAccessSummaryAllows : Prop :=
  ∀ (i : Instr) (s t : State), exec i s = .next t →
    (∀ a : Nat, (∀ o, i.dest = some o → s.destCell o ≠ some a) → t.mem.read a = s.mem.read a) ∧
      (i.dest = none → t.mem = s.mem) ∧
      ((∀ a, i ≠ .srb a) → t.rb = s.rb) ∧
      ((∀ a, i ≠ .inp a) → t.inEnv = s.inEnv) ∧ ((∀ a, i ≠ .out a) → t.outEnv = s.outEnv ∧ t.sent = s.sent) ∧
      ((t.cause = s.cause ∧ t.faultVal = s.faultVal) ∨
        (t.runState = .faulted ∧ t.pc = s.pc ∧ t.rb = s.rb ∧ t.mem = s.mem ∧ t.sent = s.sent))

/-- R15, R110: over a step, rb changes only by srb, and then by the value of its operand. -/
def Obligations.OnlySrbChangesTheRelativeBase : Prop :=
  ∀ s t : State, step s = .next t → t.rb ≠ s.rb →
    ∃ a, s.fetchInstr = .ok (.srb a) ∧ t.rb = wrap64 (s.rb.toInt + (s.sourceValue a).toInt)

/-- R99, R95, R96 (decision D10; log entries 2, 3): the traffic of one step on the two ports. An out that is accepted adds
its operand's value to the words received; an in that gets a value takes it from the front of the words still to come;
an in that gets none takes no word; no other step touches either port. -/
def Obligations.PortTrafficOfAStep : Prop :=
  ∀ s t : State, step s = .next t →
    (∀ a, s.runState = .running → s.fetchInstr = .ok (.out a) → s.readable a = true → s.outAnswer = .accept →
        t.sent = s.sent ++ [s.sourceValue a]) ∧
      ((∀ a, s.runState = .running → s.fetchInstr = .ok (.out a) → s.readable a = true → s.outAnswer = .wait) →
        t.sent = s.sent) ∧
      ((∀ a, s.runState = .running → s.fetchInstr ≠ .ok (.out a)) → t.outEnv = s.outEnv) ∧
      (∀ a v, s.runState = .running → s.fetchInstr = .ok (.inp a) → s.inAnswer = .value v →
        ∀ n, s.inEnv.words (n + 1) = v :: t.inEnv.words n) ∧
      (∀ a, s.runState = .running → s.fetchInstr = .ok (.inp a) → (∀ v, s.inAnswer ≠ .value v) →
        ∀ n, s.inEnv.words (n + 1) = t.inEnv.words n) ∧
      ((∀ a, s.runState = .running → s.fetchInstr ≠ .ok (.inp a)) → t.inEnv = s.inEnv)

/-- R99 over runs (log entries 2, 3): the words the output environment has received are those it had, and then exactly the
operand values of the completed outs, in order, each once; the words the core has received, one for each in that got a
value, are those among the first answers of the input environment, in order, and the answers after those remain. -/
def Obligations.PortSequencesOverRuns : Prop :=
  ∀ (k : Nat) (s t : State), runSteps k s = .next t →
    t.sent = s.sent ++ runSends k s ∧
      ∃ n ≤ k, runReceives k s = s.inEnv.words n ∧ ∀ j, t.inEnv.answerAt j = s.inEnv.answerAt (j + n)

/-! ### Whole-machine rules -/

/-- R81, R121, R127 (decisions D8, D9): faults are precise. A step of a RUNNING core that ends FAULTED has changed neither
pc, rb nor Mem, and has delivered no output word. -/
def Obligations.FaultsArePrecise : Prop :=
  ∀ s t : State, s.runState = .running → step s = .next t → t.runState = .faulted →
    t.pc = s.pc ∧ t.rb = s.rb ∧ t.mem = s.mem ∧ t.sent = s.sent ∧ t.outEnv = s.outEnv

/-- R17, R79, R102 (decision D11): a RUNNING core becomes HALTED only by hlt or by a taken jump to -1, and then nothing but
run_state has changed. -/
def Obligations.OnlyHltAndJumpsToMinusOneHalt : Prop :=
  ∀ s t : State, s.runState = .running → step s = .next t → t.runState = .halted →
    t = { s with runState := .halted } ∧
      (s.fetchInstr = .ok .hlt ∨
        (∃ a b, s.fetchInstr = .ok (.jit a b) ∧ s.sourceValue a ≠ 0#64 ∧ (s.sourceValue b).toInt = -1) ∨
        ∃ a b, s.fetchInstr = .ok (.jif a b) ∧ s.sourceValue a = 0#64 ∧ (s.sourceValue b).toInt = -1)

/-- R17 to R19, R122 to R126, R20: every step keeps memory canonical and the status registers consistent with one another,
with pc and with Mem (log entries 1, 11). -/
def Obligations.StepKeepsTheInvariant : Prop :=
  ∀ s t : State, s.Inv → step s = .next t → t.Inv

/-- The invariant holds after reset. -/
def Obligations.ResetMeetsTheInvariant : Prop := State.reset.Inv

/-- R24, R140 (decisions D8, D12): the values reset leaves in the six items of the state, at the defaults of START_PC and
IMAGE (log entry 5). Nothing is said of the environment (log entry 4). -/
def Obligations.ResetValues : Prop :=
  State.reset.pc = 0#64 ∧ State.reset.rb = 0#64 ∧ State.reset.runState = .running ∧ State.reset.causeCode = 0 ∧
    State.reset.faultVal = 0#64 ∧ ∀ a, State.reset.mem.read a = 0#64

/-- R140 (decision D12; log entry 12): reset in any state with any START_PC starts a run, keeps Mem and the
environment, and restores the status half of the invariant. -/
def Obligations.ResetStartsARunFromAnyState : Prop :=
  ∀ (s : State) (p : Word),
    s.applyReset p = { s with pc := p, rb := 0#64, runState := .running, cause := none, faultVal := 0#64 } ∧
      (s.mem.wf = true → (s.applyReset p).Inv)

/-- R84, R82 (decisions D10, D14; log entries 2, 3, 7): wait answers delay steps and change no outcome. A run in which the
environments wait any number of times is matched, in no more steps, by a run in any environments that give the same
answers with some of those waits left out, and the environments left are related in the same way. Leaving out every
listed wait gives such environments, and then the two runs end in the same state but for listed waits. -/
def Obligations.WaitsDelayButChangeNoOutcome : Prop :=
  (∀ (k : Nat) (s t : State) (e : InEnv) (o : OutEnv), s.inEnv.SameButForWaits e → s.outEnv.SameButForWaits o →
    runSteps k s = .next t →
    ∃ k', k' ≤ k ∧ ∃ e' o', t.inEnv.SameButForWaits e' ∧ t.outEnv.SameButForWaits o' ∧
      runSteps k' { s with inEnv := e, outEnv := o } = .next { t with inEnv := e', outEnv := o' }) ∧
    (∀ (e : InEnv) (o : OutEnv), e.SameButForWaits e.withoutWaits ∧ o.SameButForWaits o.withoutWaits) ∧
    ∀ (k : Nat) (s t : State), runSteps k s = .next t →
      ∃ k', k' ≤ k ∧ runSteps k' s.withoutWaits = .next t.withoutWaits

/-- R74, R25 (log entry 2): the input environment influences no instruction but in. -/
def Obligations.UnreadInputHasNoInfluence : Prop :=
  ∀ (i : Instr) (s t : State) (e : InEnv), (∀ a, i ≠ .inp a) → exec i s = .next t →
    exec i { s with inEnv := e } = .next { t with inEnv := e }

/-- R23, R96 (log entry 3): what has been sent influences nothing the core does. -/
def Obligations.OutputHistoryHasNoInfluence : Prop :=
  ∀ (s t : State) (earlier : List Word), step s = .next t →
    step { s with sent := earlier ++ s.sent } = .next { t with sent := earlier ++ t.sent }
end

