-- ==== Sys2Proof/Laws/Words.lean ====
section
/-!
SUPPORT. Facts about Words, the wrap law and the sequential next pc (spec/00_scope.md R1, R2; 40 R80).
-/

namespace Sys2Proof

theorem Word.toInt_lt (w : Word) : w.toInt < 2 ^ 63 := by
  have := BitVec.toInt_lt (x := w); simpa using this

theorem Word.neg_le_toInt (w : Word) : -2 ^ 63 ≤ w.toInt := by
  have := BitVec.le_toInt (x := w); simpa using this

/-- A non-negative Word is the natural number its bits say. -/
theorem Word.toInt_of_nonneg {w : Word} (h : 0 ≤ w.toInt) : w.toInt = w.toNat := by
  rw [BitVec.toInt_eq_toNat_cond] at h ⊢
  split at h <;> simp_all
  omega

theorem Word.toNat_le_amax {w : Word} (h : 0 ≤ w.toInt) : w.toNat ≤ Config.amax := by
  have h1 := Word.toInt_of_nonneg h
  have h2 := Word.toInt_lt w
  unfold Config.amax
  omega

/-- `wrap64` in terms of the centred remainder. -/
theorem wrap64_toInt (z : Int) : (wrap64 z).toInt = z.bmod (2 ^ 64) := BitVec.toInt_ofInt z

/-- `wrap64` is the identity on the range of a Word (R2). -/
theorem wrap64_toInt_of_range {z : Int} (h1 : -2 ^ 63 ≤ z) (h2 : z < 2 ^ 63) : (wrap64 z).toInt = z := by
  rw [wrap64_toInt, Int.bmod_def]
  omega

theorem wrap64_of_toInt (w : Word) : wrap64 w.toInt = w := BitVec.ofInt_toInt

theorem wrap64_add (a b : Word) : wrap64 (a.toInt + b.toInt) = a + b := by
  unfold wrap64
  rw [BitVec.ofInt_add, BitVec.ofInt_toInt, BitVec.ofInt_toInt]

theorem wrap64_mul (a b : Word) : wrap64 (a.toInt * b.toInt) = a * b := by
  unfold wrap64
  rw [BitVec.ofInt_mul, BitVec.ofInt_toInt, BitVec.ofInt_toInt]

end Sys2Proof

namespace Sys2Proof.Machine

/-- R90: the ALU's sum is the sum of the ring of Words. -/
theorem aluAdd_eq (a b : Word) : aluAdd a b = a + b := wrap64_add a b

/-- R91: the ALU's product is the product of the ring of Words. -/
theorem aluMul_eq (a b : Word) : aluMul a b = a * b := wrap64_mul a b

theorem haltSentinel_toInt : haltSentinel.toInt = -1 := by decide

/-- A Word is the halt sentinel exactly when its value is -1 (R79). -/
theorem eq_haltSentinel_iff (w : Word) : w = haltSentinel ↔ w.toInt = -1 := by
  rw [← haltSentinel_toInt, BitVec.toInt_inj]

/-- R80: a sequential advance from a non-negative pc is never the halt sentinel. -/
theorem State.seqPc_ne_haltSentinel {s : State} {n : Nat} (h : 0 ≤ s.pc.toInt) (hn : n ≤ 4) :
    s.seqPc n ≠ haltSentinel := by
  have := Word.toInt_lt s.pc
  rw [Ne, eq_haltSentinel_iff, State.seqPc, wrap64_toInt, Int.bmod_def]
  omega

/-- R79, R80: what the commit of a sequential next pc does. -/
theorem State.commit_seqPc {s : State} {n : Nat} (h : 0 ≤ s.pc.toInt) (hn : n ≤ 4) :
    s.commit (s.seqPc n) = { s with pc := s.seqPc n } :=
  if_neg (State.seqPc_ne_haltSentinel h hn)

end Sys2Proof.Machine
end

