-- ==== Sys2Proof/Laws/Memory.lean ====
section
/-!
SUPPORT. Memory: what a read gives after a write, and that every operation keeps the canonical form.
-/

namespace Sys2Proof.Machine

theorem Memory.read_erase (m : Memory) (a b : Nat) : (m.erase a).read b = if b = a then 0#64 else m.read b := by
  induction m with
  | nil => simp [Memory.erase, Memory.read]
  | cons e m ih =>
    obtain ⟨k, w⟩ := e
    by_cases hk : k = a <;> by_cases hb : k = b <;> simp_all [Memory.erase, Memory.read]

theorem Memory.read_insert (m : Memory) (a b : Nat) (v : Word) :
    (m.insert a v).read b = if b = a then v else m.read b := by
  induction m with
  | nil => simp [Memory.insert, Memory.read, eq_comm]
  | cons e m ih =>
    obtain ⟨k, w⟩ := e
    unfold Memory.insert
    split
    · simp [Memory.read, eq_comm]
    · split
      · subst_vars
        by_cases hb : b = k <;> simp [Memory.read, eq_comm, hb]
      · by_cases hb : k = b
        · subst hb; simp [Memory.read]; omega
        · simp [Memory.read, hb, ih]

/-- R33: a write changes its own cell and no other. -/
theorem Memory.read_write (m : Memory) (a b : Nat) (v : Word) :
    (m.write a v).read b = if b = a then v else m.read b := by
  unfold Memory.write
  split
  · simp_all [Memory.read_erase]
  · exact Memory.read_insert m a b v

/-! ### The canonical form -/

theorem Memory.wfFrom_mono {m : Memory} {lo lo' : Nat} (h : lo' ≤ lo) (hm : m.wfFrom lo = true) :
    m.wfFrom lo' = true := by
  cases m with
  | nil => rfl
  | cons e m => simp_all [Memory.wfFrom]; omega

theorem Memory.erase_wfFrom (m : Memory) (a lo : Nat) (hm : m.wfFrom lo = true) : (m.erase a).wfFrom lo = true := by
  induction m generalizing lo with
  | nil => rfl
  | cons e m ih =>
    obtain ⟨k, w⟩ := e
    simp only [Memory.wfFrom, Bool.and_eq_true, decide_eq_true_eq] at hm
    unfold Memory.erase
    split
    · exact Memory.wfFrom_mono (by omega) (ih (k + 1) hm.2)
    · simp [Memory.wfFrom, hm.1, ih (k + 1) hm.2]

theorem Memory.insert_wfFrom (m : Memory) (a lo : Nat) (v : Word) (hv : v ≠ 0#64) (ha : a ≤ Config.amax) (hlo : lo ≤ a)
    (hm : m.wfFrom lo = true) : (m.insert a v).wfFrom lo = true := by
  induction m generalizing lo with
  | nil => simp [Memory.insert, Memory.wfFrom, hv, ha, hlo]
  | cons e m ih =>
    obtain ⟨k, w⟩ := e
    simp only [Memory.wfFrom, Bool.and_eq_true, decide_eq_true_eq] at hm
    obtain ⟨⟨⟨h1, h2⟩, h3⟩, h4⟩ := hm
    unfold Memory.insert
    split
    · simp [Memory.wfFrom, hv, ha, hlo, h2, h3, h4]; omega
    · split
      · subst_vars; simp [Memory.wfFrom, hv, ha, hlo, h4]
      · simp [Memory.wfFrom, h1, h2, h3, ih (k + 1) (by omega) h4]

/-- A write to an address keeps the canonical form. -/
theorem Memory.write_wf {m : Memory} {a : Nat} (v : Word) (ha : a ≤ Config.amax) (hm : m.wf = true) :
    (m.write a v).wf = true := by
  unfold Memory.write
  split
  · exact Memory.erase_wfFrom m a 0 hm
  · exact Memory.insert_wfFrom m a 0 v ‹_› ha (Nat.zero_le _) hm

theorem Memory.ofImageFrom_wfFrom (vs : List Word) (a : Nat) : (Memory.ofImageFrom a vs).wfFrom a = true := by
  induction vs generalizing a with
  | nil => rfl
  | cons v vs ih =>
    unfold Memory.ofImageFrom
    split
    · simp_all [Memory.wfFrom]
    · exact Memory.wfFrom_mono (Nat.le_succ a) (ih (a + 1))

/-- R141: the memory of an image is in canonical form. -/
theorem Memory.ofImage_wf (vs : List Word) : (Memory.ofImage vs).wf = true := Memory.ofImageFrom_wfFrom vs 0

theorem State.placeWords_mem_wf (vs : List Word) (s : State) (addr : Word) (h : s.mem.wf = true) :
    (s.placeWords addr vs).mem.wf = true := by
  induction vs generalizing s addr with
  | nil => exact h
  | cons v vs ih =>
    refine ih _ _ ?_
    split
    · exact h
    · exact Memory.write_wf v (Word.toNat_le_amax (by omega)) h

/-- The memory of the reset state is in canonical form. -/
theorem State.reset_mem_wf : State.reset.mem.wf = true := rfl

/-- The reset state's memory is that of the parameter IMAGE. -/
theorem State.reset_mem_image : State.reset.mem = Memory.ofImage Config.image := rfl

end Sys2Proof.Machine
end

