-- ==== Sys2Proof/Laws/State.lean ====
section
/-!
SUPPORT. One lemma per field per update, so that no later proof unfolds an update of the state.
-/

namespace Sys2Proof.Machine

/-! ### `State.raise` (R121) -/

@[simp] theorem State.raise_pc (s : State) (t : Trap) : (s.raise t).pc = s.pc := rfl
@[simp] theorem State.raise_rb (s : State) (t : Trap) : (s.raise t).rb = s.rb := rfl
@[simp] theorem State.raise_runState (s : State) (t : Trap) : (s.raise t).runState = .faulted := rfl
@[simp] theorem State.raise_cause (s : State) (t : Trap) : (s.raise t).cause = some t.kind := rfl
@[simp] theorem State.raise_faultVal (s : State) (t : Trap) : (s.raise t).faultVal = t.val := rfl
@[simp] theorem State.raise_mem (s : State) (t : Trap) : (s.raise t).mem = s.mem := rfl
@[simp] theorem State.raise_inEnv (s : State) (t : Trap) : (s.raise t).inEnv = s.inEnv := rfl
@[simp] theorem State.raise_outEnv (s : State) (t : Trap) : (s.raise t).outEnv = s.outEnv := rfl
@[simp] theorem State.raise_sent (s : State) (t : Trap) : (s.raise t).sent = s.sent := rfl

/-! ### `State.applyReset` (R140) -/

@[simp] theorem State.applyReset_pc (s : State) (p : Word) : (s.applyReset p).pc = p := rfl
@[simp] theorem State.applyReset_rb (s : State) (p : Word) : (s.applyReset p).rb = 0#64 := rfl
@[simp] theorem State.applyReset_runState (s : State) (p : Word) : (s.applyReset p).runState = .running := rfl
@[simp] theorem State.applyReset_cause (s : State) (p : Word) : (s.applyReset p).cause = none := rfl
@[simp] theorem State.applyReset_faultVal (s : State) (p : Word) : (s.applyReset p).faultVal = 0#64 := rfl
@[simp] theorem State.applyReset_mem (s : State) (p : Word) : (s.applyReset p).mem = s.mem := rfl
@[simp] theorem State.applyReset_inEnv (s : State) (p : Word) : (s.applyReset p).inEnv = s.inEnv := rfl
@[simp] theorem State.applyReset_outEnv (s : State) (p : Word) : (s.applyReset p).outEnv = s.outEnv := rfl
@[simp] theorem State.applyReset_sent (s : State) (p : Word) : (s.applyReset p).sent = s.sent := rfl

/-! ### `State.loadImage` (R141) -/

@[simp] theorem State.loadImage_pc (s : State) (vs : List Word) : (s.loadImage vs).pc = s.pc := rfl
@[simp] theorem State.loadImage_rb (s : State) (vs : List Word) : (s.loadImage vs).rb = s.rb := rfl
@[simp] theorem State.loadImage_runState (s : State) (vs : List Word) : (s.loadImage vs).runState = s.runState := rfl
@[simp] theorem State.loadImage_cause (s : State) (vs : List Word) : (s.loadImage vs).cause = s.cause := rfl
@[simp] theorem State.loadImage_faultVal (s : State) (vs : List Word) : (s.loadImage vs).faultVal = s.faultVal := rfl
@[simp] theorem State.loadImage_mem (s : State) (vs : List Word) : (s.loadImage vs).mem = Memory.ofImage vs := rfl
@[simp] theorem State.loadImage_inEnv (s : State) (vs : List Word) : (s.loadImage vs).inEnv = s.inEnv := rfl
@[simp] theorem State.loadImage_outEnv (s : State) (vs : List Word) : (s.loadImage vs).outEnv = s.outEnv := rfl
@[simp] theorem State.loadImage_sent (s : State) (vs : List Word) : (s.loadImage vs).sent = s.sent := rfl

/-! ### `State.connect` (R3) -/

@[simp] theorem State.connect_pc (s : State) (i : InEnv) (o : OutEnv) : (s.connect i o).pc = s.pc := rfl
@[simp] theorem State.connect_rb (s : State) (i : InEnv) (o : OutEnv) : (s.connect i o).rb = s.rb := rfl
@[simp] theorem State.connect_runState (s : State) (i : InEnv) (o : OutEnv) : (s.connect i o).runState = s.runState := rfl
@[simp] theorem State.connect_cause (s : State) (i : InEnv) (o : OutEnv) : (s.connect i o).cause = s.cause := rfl
@[simp] theorem State.connect_faultVal (s : State) (i : InEnv) (o : OutEnv) : (s.connect i o).faultVal = s.faultVal := rfl
@[simp] theorem State.connect_mem (s : State) (i : InEnv) (o : OutEnv) : (s.connect i o).mem = s.mem := rfl
@[simp] theorem State.connect_inEnv (s : State) (i : InEnv) (o : OutEnv) : (s.connect i o).inEnv = i := rfl
@[simp] theorem State.connect_outEnv (s : State) (i : InEnv) (o : OutEnv) : (s.connect i o).outEnv = o := rfl
@[simp] theorem State.connect_sent (s : State) (i : InEnv) (o : OutEnv) : (s.connect i o).sent = [] := rfl

/-! ### `State.withoutWaits` (R84) -/

@[simp] theorem State.withoutWaits_pc (s : State) : (s.withoutWaits).pc = s.pc := rfl
@[simp] theorem State.withoutWaits_rb (s : State) : (s.withoutWaits).rb = s.rb := rfl
@[simp] theorem State.withoutWaits_runState (s : State) : (s.withoutWaits).runState = s.runState := rfl
@[simp] theorem State.withoutWaits_cause (s : State) : (s.withoutWaits).cause = s.cause := rfl
@[simp] theorem State.withoutWaits_faultVal (s : State) : (s.withoutWaits).faultVal = s.faultVal := rfl
@[simp] theorem State.withoutWaits_mem (s : State) : (s.withoutWaits).mem = s.mem := rfl
@[simp] theorem State.withoutWaits_inEnv (s : State) : s.withoutWaits.inEnv = s.inEnv.withoutWaits := rfl
@[simp] theorem State.withoutWaits_outEnv (s : State) : s.withoutWaits.outEnv = s.outEnv.withoutWaits := rfl
@[simp] theorem State.withoutWaits_sent (s : State) : (s.withoutWaits).sent = s.sent := rfl

/-! ### `State.commit` (R79) -/

@[simp] theorem State.commit_rb (s : State) (n : Word) : (s.commit n).rb = s.rb := by
  unfold State.commit; split <;> rfl

@[simp] theorem State.commit_cause (s : State) (n : Word) : (s.commit n).cause = s.cause := by
  unfold State.commit; split <;> rfl

@[simp] theorem State.commit_faultVal (s : State) (n : Word) : (s.commit n).faultVal = s.faultVal := by
  unfold State.commit; split <;> rfl

@[simp] theorem State.commit_mem (s : State) (n : Word) : (s.commit n).mem = s.mem := by
  unfold State.commit; split <;> rfl

@[simp] theorem State.commit_inEnv (s : State) (n : Word) : (s.commit n).inEnv = s.inEnv := by
  unfold State.commit; split <;> rfl

@[simp] theorem State.commit_outEnv (s : State) (n : Word) : (s.commit n).outEnv = s.outEnv := by
  unfold State.commit; split <;> rfl

@[simp] theorem State.commit_sent (s : State) (n : Word) : (s.commit n).sent = s.sent := by
  unfold State.commit; split <;> rfl

theorem State.commit_pc (s : State) (n : Word) : (s.commit n).pc = if n = haltSentinel then s.pc else n := by
  unfold State.commit; split <;> rfl

theorem State.commit_runState (s : State) (n : Word) :
    (s.commit n).runState = if n = haltSentinel then .halted else s.runState := by
  unfold State.commit; split <;> rfl

theorem State.commit_sentinel (s : State) : s.commit haltSentinel = { s with runState := .halted } := if_pos rfl

theorem State.commit_of_ne (s : State) {n : Word} (h : n ≠ haltSentinel) : s.commit n = { s with pc := n } := if_neg h

/-! ### `State.inRecv` (R95) and `State.outSend` (R96) -/

@[simp] theorem State.inRecv_fst (s : State) : s.inRecv.1 = s.inEnv.answer := rfl
@[simp] theorem State.inRecv_pc (s : State) : s.inRecv.2.pc = s.pc := rfl
@[simp] theorem State.inRecv_rb (s : State) : s.inRecv.2.rb = s.rb := rfl
@[simp] theorem State.inRecv_runState (s : State) : s.inRecv.2.runState = s.runState := rfl
@[simp] theorem State.inRecv_cause (s : State) : s.inRecv.2.cause = s.cause := rfl
@[simp] theorem State.inRecv_faultVal (s : State) : s.inRecv.2.faultVal = s.faultVal := rfl
@[simp] theorem State.inRecv_mem (s : State) : s.inRecv.2.mem = s.mem := rfl
@[simp] theorem State.inRecv_inEnv (s : State) : s.inRecv.2.inEnv = s.inEnv.next := rfl
@[simp] theorem State.inRecv_outEnv (s : State) : s.inRecv.2.outEnv = s.outEnv := rfl
@[simp] theorem State.inRecv_sent (s : State) : s.inRecv.2.sent = s.sent := rfl

@[simp] theorem State.outSend_pc (s : State) (v : Word) : (s.outSend v).2.pc = s.pc := by
  unfold State.outSend; split <;> rfl

@[simp] theorem State.outSend_rb (s : State) (v : Word) : (s.outSend v).2.rb = s.rb := by
  unfold State.outSend; split <;> rfl

@[simp] theorem State.outSend_runState (s : State) (v : Word) : (s.outSend v).2.runState = s.runState := by
  unfold State.outSend; split <;> rfl

@[simp] theorem State.outSend_cause (s : State) (v : Word) : (s.outSend v).2.cause = s.cause := by
  unfold State.outSend; split <;> rfl

@[simp] theorem State.outSend_faultVal (s : State) (v : Word) : (s.outSend v).2.faultVal = s.faultVal := by
  unfold State.outSend; split <;> rfl

@[simp] theorem State.outSend_mem (s : State) (v : Word) : (s.outSend v).2.mem = s.mem := by
  unfold State.outSend; split <;> rfl

@[simp] theorem State.outSend_inEnv (s : State) (v : Word) : (s.outSend v).2.inEnv = s.inEnv := by
  unfold State.outSend; split <;> rfl

@[simp] theorem State.outSend_outEnv (s : State) (v : Word) : (s.outSend v).2.outEnv = s.outEnv.next := by
  unfold State.outSend; split <;> rfl

end Sys2Proof.Machine
end

