-- ==== Sys2Proof/Laws/Operands.lean ====
section
/-!
SUPPORT. What the operand resolver and the shared shapes of the execute stage can do, said once
(spec/40_step_and_operands.md R75 to R78), and what a step can do in each run state (R70).
-/

namespace Sys2Proof.Machine

/-- R32. -/
theorem State.memRead_of_nonneg {s : State} {a : Word} (h : 0 ≤ a.toInt) : s.memRead a = .ok (s.mem.read a.toNat) :=
  if_neg (by omega)

/-- R34. -/
theorem State.memRead_of_neg {s : State} {a : Word} (h : a.toInt < 0) : s.memRead a = .error ⟨.addressFault, a⟩ :=
  if_pos h

/-- R76: a readable source gives its value. -/
theorem State.opRead_of_readable {s : State} {o : Operand} (h : s.readable o = true) :
    s.opRead o = .ok (s.sourceValue o) := by
  unfold State.readable at h
  unfold State.opRead State.sourceValue
  split at h <;> simp_all [State.memRead_of_nonneg]

/-- R76: a source that is not readable has a negative effective address, and reading it raises AddressFault. -/
theorem State.opRead_of_not_readable {s : State} {o : Operand} (h : s.readable o = false) :
    ∃ ea, s.opAddr o = some ea ∧ ea.toInt < 0 ∧ s.opRead o = .error ⟨.addressFault, ea⟩ := by
  unfold State.readable at h
  split at h
  · cases h
  · rename_i ea hea
    have hneg : ea.toInt < 0 := by simpa using h
    exact ⟨ea, hea, hneg, by simp [State.opRead, hea, State.memRead_of_neg hneg]⟩

/-- R76: a source whose effective address is negative is not readable. -/
theorem State.readable_of_neg {s : State} {o : Operand} {ea : Word} (h : s.opAddr o = some ea) (hn : ea.toInt < 0) :
    s.readable o = false := by
  simp [State.readable, h, hn]

/-- R77: a store to a destination that has a cell writes that cell. -/
theorem State.opWrite_of_destCell {s : State} {o : Operand} {a : Nat} (v : Word) (h : s.destCell o = some a) :
    s.opWrite o v = .ok { s with mem := s.mem.write a v } := by
  unfold State.destCell at h
  unfold State.opWrite State.memWrite
  split at h
  · cases h
  · split at h
    · simp only [Option.some.injEq] at h
      subst h
      simp_all
    · cases h

/-- The cell of a destination is an address. -/
theorem State.destCell_le_amax {s : State} {o : Operand} {a : Nat} (h : s.destCell o = some a) : a ≤ Config.amax := by
  unfold State.destCell at h
  split at h
  · cases h
  · split at h
    · simp only [Option.some.injEq] at h
      subst h
      exact Word.toNat_le_amax ‹_›
    · cases h

/-- R77: a store to a destination without a cell raises WriteToImmediate or AddressFault, whatever the value. -/
theorem State.opWrite_of_no_destCell {s : State} {o : Operand} (v : Word) (h : s.destCell o = none) :
    (s.opAddr o = none ∧ s.opWrite o v = .error ⟨.writeToImmediate, o.raw⟩) ∨
      ∃ ea, s.opAddr o = some ea ∧ ea.toInt < 0 ∧ s.opWrite o v = .error ⟨.addressFault, ea⟩ := by
  unfold State.destCell at h
  split at h
  · exact .inl ⟨‹_›, by simp_all [State.opWrite]⟩
  · rename_i ea hea
    split at h
    · cases h
    · have hneg : ea.toInt < 0 := by omega
      exact .inr ⟨ea, hea, hneg, by simp [State.opWrite, State.memWrite, hea, hneg]⟩

/-- An operand without an effective address is an immediate. -/
theorem State.opAddr_eq_none_iff {s : State} {o : Operand} : s.opAddr o = none ↔ o.mode = .immediate := by
  unfold State.opAddr
  split <;> simp_all

/-! ### The shared shapes -/

theorem withSource_of_readable {s : State} {o : Operand} {k} (h : s.readable o = true) :
    withSource s o k = k (s.sourceValue o) := by
  simp [withSource, State.opRead_of_readable h]

theorem withSource_of_neg {s : State} {o : Operand} {ea : Word} {k} (h : s.opAddr o = some ea) (hn : ea.toInt < 0) :
    withSource s o k = .next (s.raise ⟨.addressFault, ea⟩) := by
  simp [withSource, State.opRead, h, State.memRead_of_neg hn]

/-- R78, R81: reading a source goes on with its value or takes an AddressFault. -/
theorem withSource_cases (s : State) (o : Operand) (k : Word → Host.Outcome State Fault Refusal) :
    (s.readable o = true ∧ withSource s o k = k (s.sourceValue o)) ∨
      ∃ ea, s.opAddr o = some ea ∧ ea.toInt < 0 ∧ withSource s o k = .next (s.raise ⟨.addressFault, ea⟩) := by
  cases h : s.readable o with
  | true => exact .inl ⟨rfl, withSource_of_readable h⟩
  | false =>
    obtain ⟨ea, h1, h2, h3⟩ := State.opRead_of_not_readable h
    exact .inr ⟨ea, h1, h2, by simp [withSource, h3]⟩

theorem storeAndAdvance_of_destCell {s : State} {o : Operand} {a : Nat} {v : Word} {n : Nat}
    (h : s.destCell o = some a) :
    storeAndAdvance s o v n = .next (State.commit { s with mem := s.mem.write a v } (s.seqPc n)) := by
  simp [storeAndAdvance, State.opWrite_of_destCell v h, State.seqPc]

/-- R77, R81: storing completes in its cell, or takes one of the two faults with nothing stored. -/
theorem storeAndAdvance_cases (s : State) (o : Operand) (v : Word) (n : Nat) :
    (∃ a, s.destCell o = some a ∧
        storeAndAdvance s o v n = .next (State.commit { s with mem := s.mem.write a v } (s.seqPc n))) ∨
      (s.opAddr o = none ∧ storeAndAdvance s o v n = .next (s.raise ⟨.writeToImmediate, o.raw⟩)) ∨
      ∃ ea, s.opAddr o = some ea ∧ ea.toInt < 0 ∧
        storeAndAdvance s o v n = .next (s.raise ⟨.addressFault, ea⟩) := by
  cases h : s.destCell o with
  | some a => exact .inl ⟨a, rfl, storeAndAdvance_of_destCell h⟩
  | none =>
    obtain ⟨h1, h2⟩ | ⟨ea, h1, h2, h3⟩ := State.opWrite_of_no_destCell v h
    · exact .inr (.inl ⟨h1, by simp [storeAndAdvance, h2]⟩)
    · exact .inr (.inr ⟨ea, h1, h2, by simp [storeAndAdvance, h3]⟩)

/-! ### The step in each run state -/

theorem step_of_fetch_error {s : State} {t : Trap} (hr : s.runState = .running) (h : s.fetchInstr = .error t) :
    step s = .next (s.raise t) := by
  simp [step, hr, h]

theorem step_of_fetch_ok {s : State} {i : Instr} (hr : s.runState = .running) (h : s.fetchInstr = .ok i) :
    step s = exec i s := by
  simp [step, hr, h]

theorem step_of_not_running {s : State} (h : s.runState ≠ .running) : step s = .next s := by
  unfold step
  split <;> simp_all

/-! ### Several steps -/

@[simp] theorem runSteps_zero (s : State) : runSteps 0 s = .next s := rfl

theorem runSteps_succ {n : Nat} {s t : State} (h : step s = .next t) : runSteps (n + 1) s = runSteps n t := by
  simp [runSteps, h]

theorem coreRun_succ (M : Host.Core) (n : Nat) (s : M.State) :
    M.run (n + 1) s = match M.step s with
      | .next t => M.run n t
      | .fault r => .fault r
      | .refused r => .refused r := rfl

/-- `runSteps` is the host's run of the machine. -/
theorem runSteps_eq_core_run (n : Nat) (s : State) : runSteps n s = Sys2Proof.core.run n s := by
  induction n generalizing s with
  | zero => rfl
  | succ n ih =>
    refine Eq.trans ?_ (coreRun_succ Sys2Proof.core n s).symm
    rw [show Sys2Proof.core.step s = step s from rfl, runSteps]
    cases step s with
    | next t => exact ih t
    | fault r => rfl
    | refused r => rfl

end Sys2Proof.Machine
end

