-- ==== Sys2Proof/Laws/Ports.lean ====
section
/-!
SUPPORT. The environments at the two ports (spec/42_io.md R95, R96): what giving one answer leaves of them.
-/

namespace Sys2Proof.Machine

/-! ### The input environment -/

@[simp] theorem InEnv.answer_cons (x : InEvent) (xs : List InEvent) (r : InRest) :
    (InEnv.mk (x :: xs) r).answer = x.answer := rfl

@[simp] theorem InEnv.answer_nil (r : InRest) : (InEnv.mk [] r).answer = r.answerAt 0 := rfl

@[simp] theorem InEnv.next_cons (x : InEvent) (xs : List InEvent) (r : InRest) :
    (InEnv.mk (x :: xs) r).next = ⟨xs, r⟩ := rfl

@[simp] theorem InEnv.next_nil (r : InRest) : (InEnv.mk [] r).next = ⟨[], r.next⟩ := rfl

@[simp] theorem InEnv.answerAt_nil (r : InRest) (k : Nat) : (InEnv.mk [] r).answerAt k = r.answerAt k := rfl

@[simp] theorem InEnv.answerAt_cons_zero (x : InEvent) (xs : List InEvent) (r : InRest) :
    (InEnv.mk (x :: xs) r).answerAt 0 = x.answer := rfl

@[simp] theorem InEnv.answerAt_cons_succ (x : InEvent) (xs : List InEvent) (r : InRest) (k : Nat) :
    (InEnv.mk (x :: xs) r).answerAt (k + 1) = (InEnv.mk xs r).answerAt k := by
  simp [InEnv.answerAt]

/-- R95: the later answers move up by one place. -/
@[simp] theorem InRest.next_answerAt (r : InRest) (k : Nat) : r.next.answerAt k = r.answerAt (k + 1) := by
  cases r with
  | waits => rfl
  | ended => rfl
  | repeats v => rfl
  | oracle e n => simp [InRest.next, InRest.answerAt, Nat.add_comm, Nat.add_left_comm]

/-- R95: a listed answer is not `end`. -/
@[simp] theorem InEvent.answer_ne_ended (x : InEvent) : x.answer ≠ .ended := by cases x <;> simp [InEvent.answer]

/-- R95: only one kind of environment ever ends, and it has ended for good. -/
theorem InRest.eq_ended_of_answerAt {r : InRest} {k : Nat} (h : r.answerAt k = .ended) : r = .ended := by
  cases r with
  | ended => rfl
  | waits => simp [InRest.answerAt] at h
  | repeats v => simp [InRest.answerAt] at h
  | oracle e n =>
    simp only [InRest.answerAt] at h
    split at h <;> simp at h

/-- R95: an environment that answers `end` is used up. -/
theorem InEnv.eq_of_answer_ended {e : InEnv} (h : e.answer = .ended) : e = ⟨[], .ended⟩ := by
  obtain ⟨_ | ⟨x, xs⟩, r⟩ := e
  · exact congrArg (InEnv.mk []) (InRest.eq_ended_of_answerAt h)
  · exact absurd h x.answer_ne_ended

/-- R95: `end` changes nothing. -/
theorem InEnv.next_of_ended {e : InEnv} (h : e.answer = .ended) : e.next = e := by
  rw [InEnv.eq_of_answer_ended h]; rfl

/-! ### The output environment -/

@[simp] theorem OutEnv.answer_cons (x : OutAnswer) (xs : List OutAnswer) (r : OutRest) :
    (OutEnv.mk (x :: xs) r).answer = x := rfl

@[simp] theorem OutEnv.answer_nil (r : OutRest) : (OutEnv.mk [] r).answer = r.answerAt 0 := rfl

@[simp] theorem OutEnv.next_cons (x : OutAnswer) (xs : List OutAnswer) (r : OutRest) :
    (OutEnv.mk (x :: xs) r).next = ⟨xs, r⟩ := rfl

@[simp] theorem OutEnv.next_nil (r : OutRest) : (OutEnv.mk [] r).next = ⟨[], r.next⟩ := rfl

@[simp] theorem OutEnv.answerAt_nil (r : OutRest) (k : Nat) : (OutEnv.mk [] r).answerAt k = r.answerAt k := rfl

@[simp] theorem OutEnv.answerAt_cons_zero (x : OutAnswer) (xs : List OutAnswer) (r : OutRest) :
    (OutEnv.mk (x :: xs) r).answerAt 0 = x := rfl

@[simp] theorem OutEnv.answerAt_cons_succ (x : OutAnswer) (xs : List OutAnswer) (r : OutRest) (k : Nat) :
    (OutEnv.mk (x :: xs) r).answerAt (k + 1) = (OutEnv.mk xs r).answerAt k := by
  simp [OutEnv.answerAt]

/-- R96: the later answers move up by one place. -/
@[simp] theorem OutRest.next_answerAt (r : OutRest) (k : Nat) : r.next.answerAt k = r.answerAt (k + 1) := by
  cases r with
  | accepts => rfl
  | waits => rfl
  | oracle e n => simp [OutRest.next, OutRest.answerAt, Nat.add_comm, Nat.add_left_comm]

end Sys2Proof.Machine
end

