-- ==== Sys2Proof/Laws/Exec.lean ====
section
/-!
SUPPORT. Everything the shared shapes of the execute stage, the two ports and a step can do, said once: what a next state is
when they answer one. Later proofs take a step apart with these and unfold nothing.
-/

namespace Sys2Proof.Machine

/-! ### The ports (R95, R96) -/

/-- R95: a receive gives the environment's answer and moves it on. -/
theorem State.inRecv_eq (s : State) : s.inRecv = (s.inAnswer, { s with inEnv := s.inEnv.next }) := rfl

/-- R96: a send gives the environment's answer, moves it on, and appends the word if accepted. -/
theorem State.outSend_eq (s : State) (v : Word) :
    s.outSend v = (s.outAnswer, { s with
      outEnv := s.outEnv.next
      sent := if s.outAnswer = .accept then s.sent ++ [v] else s.sent }) := by
  unfold State.outSend State.outAnswer
  split <;> simp_all

/-! ### Next states -/

theorem next_inj {s t : State} (h : (Host.Outcome.next s : Host.Outcome State Fault Refusal) = .next t) : t = s := by
  cases h; rfl

/-- R90, R91, R105, R106: add, mul, lt and eq complete in c's cell, or fault. -/
theorem execBinary_next {f : Word → Word → Word} {a b c : Operand} {s t : State}
    (h : execBinary f a b c s = .next t) :
    (s.readable a = true ∧ s.readable b = true ∧ ∃ d, s.destCell c = some d ∧
        t = State.commit { s with mem := s.mem.write d (f (s.sourceValue a) (s.sourceValue b)) } (s.seqPc 4)) ∨
      (∃ ea, ea.toInt < 0 ∧ t = s.raise ⟨.addressFault, ea⟩) ∨
      (s.opAddr c = none ∧ t = s.raise ⟨.writeToImmediate, c.raw⟩) := by
  unfold execBinary at h
  obtain ⟨ha, e⟩ | ⟨ea, _, hn, e⟩ :=
      withSource_cases s a (fun x => withSource s b fun y => storeAndAdvance s c (f x y) 4) <;> rw [e] at h
  · obtain ⟨hb, e⟩ | ⟨ea, _, hn, e⟩ :=
        withSource_cases s b (fun y => storeAndAdvance s c (f (s.sourceValue a) y) 4) <;> rw [e] at h
    · obtain ⟨d, hd, e⟩ | ⟨hi, e⟩ | ⟨ea, _, hn, e⟩ :=
          storeAndAdvance_cases s c (f (s.sourceValue a) (s.sourceValue b)) 4 <;> rw [e] at h
      · exact .inl ⟨ha, hb, d, hd, next_inj h⟩
      · exact .inr (.inr ⟨hi, next_inj h⟩)
      · exact .inr (.inl ⟨ea, hn, next_inj h⟩)
    · exact .inr (.inl ⟨ea, hn, next_inj h⟩)
  · exact .inr (.inl ⟨ea, hn, next_inj h⟩)

/-- R100, R101: jit and jif commit one of their two next-pcs, or fault. -/
theorem execJump_next {taken : Word → Bool} {a b : Operand} {s t : State} (h : execJump taken a b s = .next t) :
    (s.readable a = true ∧ s.readable b = true ∧
        t = s.commit (if taken (s.sourceValue a) then s.sourceValue b else s.seqPc 3)) ∨
      ∃ ea, ea.toInt < 0 ∧ t = s.raise ⟨.addressFault, ea⟩ := by
  unfold execJump at h
  obtain ⟨ha, e⟩ | ⟨ea, _, hn, e⟩ := withSource_cases s a
      (fun x => withSource s b fun y => .next (s.commit (if taken x then y else s.seqPc 3))) <;> rw [e] at h
  · obtain ⟨hb, e⟩ | ⟨ea, _, hn, e⟩ := withSource_cases s b
        (fun y => .next (s.commit (if taken (s.sourceValue a) then y else s.seqPc 3))) <;> rw [e] at h
    · exact .inl ⟨ha, hb, next_inj h⟩
    · exact .inr ⟨ea, hn, next_inj h⟩
  · exact .inr ⟨ea, hn, next_inj h⟩

/-- R97: in stalls, faults at the end of input, completes in a's cell, or faults with its word consumed. -/
theorem execIn_next {a : Operand} {s t : State} (h : execIn a s = .next t) :
    (s.inAnswer = .wait ∧ t = { s with inEnv := s.inEnv.next }) ∨
      (s.inAnswer = .ended ∧ t = State.raise { s with inEnv := s.inEnv.next } ⟨.inputExhausted, 0#64⟩) ∨
      ∃ v, s.inAnswer = .value v ∧
        ((∃ d, s.destCell a = some d ∧
            t = State.commit { s with inEnv := s.inEnv.next, mem := s.mem.write d v } (s.seqPc 2)) ∨
          (s.opAddr a = none ∧ t = State.raise { s with inEnv := s.inEnv.next } ⟨.writeToImmediate, a.raw⟩) ∨
          ∃ ea, ea.toInt < 0 ∧ t = State.raise { s with inEnv := s.inEnv.next } ⟨.addressFault, ea⟩) := by
  unfold execIn at h
  rw [State.inRecv_eq] at h
  cases hi : s.inAnswer with
  | wait => rw [hi] at h; exact .inl ⟨rfl, next_inj h⟩
  | ended => rw [hi] at h; exact .inr (.inl ⟨rfl, next_inj h⟩)
  | value v =>
    rw [hi] at h
    refine .inr (.inr ⟨v, rfl, ?_⟩)
    obtain ⟨d, hd, e⟩ | ⟨h1, e⟩ | ⟨ea, _, hn, e⟩ :=
      storeAndAdvance_cases { s with inEnv := s.inEnv.next } a v 2
    · exact .inl ⟨d, hd, next_inj (e.symm.trans h)⟩
    · exact .inr (.inl ⟨h1, next_inj (e.symm.trans h)⟩)
    · exact .inr (.inr ⟨ea, hn, next_inj (e.symm.trans h)⟩)

/-- R98: out stalls, completes with its operand's value sent, or faults with nothing sent. -/
theorem execOut_next {a : Operand} {s t : State} (h : execOut a s = .next t) :
    (s.readable a = true ∧ s.outAnswer = .wait ∧ t = { s with outEnv := s.outEnv.next }) ∨
      (s.readable a = true ∧ s.outAnswer = .accept ∧
        t = State.commit { s with outEnv := s.outEnv.next, sent := s.sent ++ [s.sourceValue a] } (s.seqPc 2)) ∨
      (s.readable a = false ∧ ∃ ea, s.opAddr a = some ea ∧ ea.toInt < 0 ∧ t = s.raise ⟨.addressFault, ea⟩) := by
  unfold execOut at h
  cases ha : s.readable a with
  | false =>
    obtain ⟨ea, h1, h2, _⟩ := State.opRead_of_not_readable ha
    rw [withSource_of_neg h1 h2] at h
    exact .inr (.inr ⟨rfl, ea, h1, h2, next_inj h⟩)
  | true =>
    rw [withSource_of_readable ha, State.outSend_eq] at h
    cases ho : s.outAnswer with
    | wait => simp only [ho] at h; exact .inl ⟨rfl, rfl, by simpa using next_inj h⟩
    | accept => simp only [ho] at h; exact .inr (.inl ⟨rfl, rfl, next_inj h⟩)

/-- R110: srb completes with its operand added to rb, or faults. -/
theorem execSrb_next {a : Operand} {s t : State} (h : execSrb a s = .next t) :
    (s.readable a = true ∧ t = State.commit { s with rb := aluAdd s.rb (s.sourceValue a) } (s.seqPc 2)) ∨
      ∃ ea, ea.toInt < 0 ∧ t = s.raise ⟨.addressFault, ea⟩ := by
  unfold execSrb at h
  obtain ⟨ha, e⟩ | ⟨ea, _, hn, e⟩ := withSource_cases s a
      (fun x => .next (State.commit { s with rb := aluAdd s.rb x } (s.seqPc 2))) <;> rw [e] at h
  · exact .inl ⟨ha, next_inj h⟩
  · exact .inr ⟨ea, hn, next_inj h⟩

/-- R70, R81: a step holds a terminal state, takes a fault of the fetch, or executes the fetched instruction. -/
theorem step_next {s t : State} (h : step s = .next t) :
    (s.runState ≠ .running ∧ t = s) ∨
      (s.runState = .running ∧
        ((∃ f, s.fetchInstr = .error f ∧ t = s.raise f) ∨ ∃ i, s.fetchInstr = .ok i ∧ exec i s = .next t)) := by
  by_cases hr : s.runState = .running
  · refine .inr ⟨hr, ?_⟩
    cases hf : s.fetchInstr with
    | error f => rw [step_of_fetch_error hr hf] at h; exact .inl ⟨f, rfl, next_inj h⟩
    | ok i => rw [step_of_fetch_ok hr hf] at h; exact .inr ⟨i, rfl, h⟩
  · rw [step_of_not_running hr] at h
    exact .inl ⟨hr, next_inj h⟩

end Sys2Proof.Machine
end

