-- ==== Sys2Proof/Laws/Fetch.lean ====
section
/-!
SUPPORT. What fetch does (spec/40_step_and_operands.md R71 to R73) and where placed words stand.
-/

namespace Sys2Proof.Machine

/-- R71: a fetch that completes had a non-negative pc. -/
theorem State.fetchInstr_pc_nonneg {s : State} {i : Instr} (h : s.fetchInstr = .ok i) : 0 ≤ s.pc.toInt := by
  by_contra hn
  simp [State.fetchInstr, State.memRead_of_neg (show s.pc.toInt < 0 by omega)] at h

/-- R73: the address of an instruction word that lies within the address space. -/
theorem State.wordAddr_of_range {s : State} {k : Nat} (h0 : 0 ≤ s.pc.toInt) (h : s.pc.toInt + k ≤ Config.amax) :
    0 ≤ (s.wordAddr k).toInt ∧ (s.wordAddr k).toNat = s.pc.toNat + k := by
  have h1 : (s.wordAddr k).toInt = s.pc.toInt + k := by
    unfold Config.amax at h
    exact wrap64_toInt_of_range (by omega) (by push_cast at h; omega)
  have := Word.toInt_of_nonneg h0
  have := Word.toInt_of_nonneg (w := s.wordAddr k) (by omega)
  omega

/-- R73: operand words that lie within the address space are the cells after the opcode word. -/
theorem State.fetchWords_of_range {s : State} (h0 : 0 ≤ s.pc.toInt) (n k : Nat)
    (h : s.pc.toInt + k + n ≤ Config.amax + 1) :
    s.fetchWords k n = .ok ((List.range n).map fun j => s.mem.read (s.pc.toNat + k + j)) := by
  induction n generalizing k with
  | zero => rfl
  | succ n ih =>
    obtain ⟨h1, h2⟩ := State.wordAddr_of_range (s := s) (k := k) h0 (by push_cast at h; omega)
    simp only [State.fetchWords, State.memRead_of_nonneg h1, h2, ih (k + 1) (by push_cast at h ⊢; omega)]
    rw [List.range_succ_eq_map]
    simp only [List.map_cons, List.map_map]
    congr 2
    refine List.map_congr_left fun j _ => ?_
    simp only [Function.comp]
    congr 1
    omega

/-- R34, R73: an operand fetch can only fail by an AddressFault with a negative address. -/
theorem State.fetchWords_error {s : State} {n k : Nat} {t : Trap} (h : s.fetchWords k n = .error t) :
    t.kind = .addressFault ∧ t.val.toInt < 0 := by
  induction n generalizing k with
  | zero => cases h
  | succ n ih =>
    unfold State.fetchWords at h
    split at h
    · rename_i t' h'
      cases h
      unfold State.memRead at h'
      split at h'
      · cases h'; exact ⟨rfl, ‹_›⟩
      · cases h'
    · split at h
      · rename_i h'; cases h; exact ih h'
      · cases h

/-- R73: the words an operand fetch gives are those of memory. -/
theorem State.fetchWords_getD {s : State} {n k : Nat} {ws : List Word} (h : s.fetchWords k n = .ok ws) :
    ∀ j < n, ws.getD j 0 = s.mem.read (s.wordAddr (k + j)).toNat := by
  induction n generalizing k ws with
  | zero => intro j hj; omega
  | succ n ih =>
    unfold State.fetchWords at h
    split at h
    · cases h
    · rename_i w hw
      split at h
      · cases h
      · rename_i ws' hws
        cases h
        intro j hj
        rcases j with _ | j
        · unfold State.memRead at hw
          split at hw
          · cases hw
          · cases hw; simp
        · simp only [List.getD_cons_succ, ih hws j (by omega)]
          congr 3
          omega

/-! ### Placed words -/

@[simp] theorem State.placeWords_pc (vs : List Word) (s : State) (a : Word) : (s.placeWords a vs).pc = s.pc := by
  induction vs generalizing s a with
  | nil => rfl
  | cons v vs ih => rw [State.placeWords, ih]; split <;> rfl

@[simp] theorem State.placeWords_runState (vs : List Word) (s : State) (a : Word) :
    (s.placeWords a vs).runState = s.runState := by
  induction vs generalizing s a with
  | nil => rfl
  | cons v vs ih => rw [State.placeWords, ih]; split <;> rfl

/-- Words placed within the address space stand one after another, and every other cell is as before. -/
theorem State.placeWords_read (vs : List Word) (s : State) (a : Word) (h0 : 0 ≤ a.toInt)
    (h : a.toInt + vs.length ≤ Config.amax + 1) (n : Nat) :
    (s.placeWords a vs).mem.read n =
      if a.toNat ≤ n ∧ n < a.toNat + vs.length then vs.getD (n - a.toNat) 0 else s.mem.read n := by
  induction vs generalizing s a with
  | nil => simp [State.placeWords]
  | cons v vs ih =>
    rw [State.placeWords, if_neg (by omega)]
    have ha := Word.toInt_of_nonneg h0
    by_cases hl : vs = []
    · subst hl
      simp only [State.placeWords, Memory.read_write]
      by_cases e : n = a.toNat
      · subst e; simp
      · rw [if_neg e, if_neg (by simp; omega)]
    · have hlen : 1 ≤ vs.length := by rcases vs with _ | _ <;> simp_all
      simp only [List.length_cons] at h
      unfold Config.amax at h
      have e1 : (wrap64 (a.toInt + 1)).toInt = a.toInt + 1 :=
        wrap64_toInt_of_range (by omega) (by push_cast at h; omega)
      have e2 : (wrap64 (a.toInt + 1)).toNat = a.toNat + 1 := by
        have := Word.toInt_of_nonneg (w := wrap64 (a.toInt + 1)) (by omega)
        omega
      rw [ih _ _ (by omega) (by unfold Config.amax; push_cast at h ⊢; omega), e2]
      simp only [Memory.read_write, List.length_cons]
      by_cases c1 : n = a.toNat
      · subst c1; simp
      · by_cases c2 : a.toNat + 1 ≤ n ∧ n < a.toNat + 1 + vs.length
        · rw [if_pos c2, if_pos (by omega), show n - a.toNat = (n - (a.toNat + 1)) + 1 by omega]
          simp
        · rw [if_neg c2, if_neg c1, if_neg (by omega)]

end Sys2Proof.Machine
end

