-- ==== Sys2Proof/Laws/PerInstr.lean ====
section
/-!
SUPPORT. A statement about every instruction as syntax, one lemma per constructor: its opcode, mode fields and operand
words pass the checks of WellFormed.lean (spec/30_encoding.md R50, R53, R55).
-/

namespace Sys2Proof

theorem Mode.toField_le (m : Mode) : m.toField ≤ 2 := by cases m <;> decide

end Sys2Proof

namespace Sys2Proof.Laws.WellFormedSplit

def Statement (i : Instr) : Prop := i.wellFormed = true

theorem add (a b c : Operand) : Statement (.add a b c) := by
  simp [Statement, Instr.wellFormed, SplitInstr.wellFormed, SplitInstr.modesLegal, SplitInstr.opcodeLegal,
    SplitInstr.operandCount, SplitInstr.arityOf, Instr.split, Mode.toField_le]

theorem mul (a b c : Operand) : Statement (.mul a b c) := by
  simp [Statement, Instr.wellFormed, SplitInstr.wellFormed, SplitInstr.modesLegal, SplitInstr.opcodeLegal,
    SplitInstr.operandCount, SplitInstr.arityOf, Instr.split, Mode.toField_le]

theorem inp (a : Operand) : Statement (.inp a) := by
  simp [Statement, Instr.wellFormed, SplitInstr.wellFormed, SplitInstr.modesLegal, SplitInstr.opcodeLegal,
    SplitInstr.operandCount, SplitInstr.arityOf, Instr.split, Mode.toField_le]

theorem out (a : Operand) : Statement (.out a) := by
  simp [Statement, Instr.wellFormed, SplitInstr.wellFormed, SplitInstr.modesLegal, SplitInstr.opcodeLegal,
    SplitInstr.operandCount, SplitInstr.arityOf, Instr.split, Mode.toField_le]

theorem jit (a b : Operand) : Statement (.jit a b) := by
  simp [Statement, Instr.wellFormed, SplitInstr.wellFormed, SplitInstr.modesLegal, SplitInstr.opcodeLegal,
    SplitInstr.operandCount, SplitInstr.arityOf, Instr.split, Mode.toField_le]

theorem jif (a b : Operand) : Statement (.jif a b) := by
  simp [Statement, Instr.wellFormed, SplitInstr.wellFormed, SplitInstr.modesLegal, SplitInstr.opcodeLegal,
    SplitInstr.operandCount, SplitInstr.arityOf, Instr.split, Mode.toField_le]

theorem lt (a b c : Operand) : Statement (.lt a b c) := by
  simp [Statement, Instr.wellFormed, SplitInstr.wellFormed, SplitInstr.modesLegal, SplitInstr.opcodeLegal,
    SplitInstr.operandCount, SplitInstr.arityOf, Instr.split, Mode.toField_le]

theorem eq (a b c : Operand) : Statement (.eq a b c) := by
  simp [Statement, Instr.wellFormed, SplitInstr.wellFormed, SplitInstr.modesLegal, SplitInstr.opcodeLegal,
    SplitInstr.operandCount, SplitInstr.arityOf, Instr.split, Mode.toField_le]

theorem srb (a : Operand) : Statement (.srb a) := by
  simp [Statement, Instr.wellFormed, SplitInstr.wellFormed, SplitInstr.modesLegal, SplitInstr.opcodeLegal,
    SplitInstr.operandCount, SplitInstr.arityOf, Instr.split, Mode.toField_le]

theorem hlt : Statement .hlt := by
  simp [Statement, Instr.wellFormed, SplitInstr.wellFormed, SplitInstr.modesLegal, SplitInstr.opcodeLegal,
    SplitInstr.operandCount, SplitInstr.arityOf, Instr.split]

end Sys2Proof.Laws.WellFormedSplit
end

