-- ==== Sys2Proof/Tests/Slice0.lean ====
section
/-!
SUPPORT. Tests of the model, each of one step or one operation, with the expected results of spec/95_test_vectors.md (the
vector is named in each comment) or worked by hand from the rule named there; and for each obligation with hypotheses a
witness that meets them.
-/

namespace Sys2Proof.Tests

open Sys2Proof Sys2Proof.Machine

/-! ### Helpers -/

/-- The largest and the smallest Word (spec/95_test_vectors.md, conventions). -/
abbrev maxWord : Word := wrap64 9223372036854775807
abbrev minWord : Word := wrap64 (-9223372036854775808)

/-- A core about to run an image from address 0 with these input words, then `end`. -/
def boot (image : List Word) (inputs : List Word := []) : State :=
  State.reset.boot image 0 ⟨inputs.map .value, .ended⟩ ⟨[], .accepts⟩

/-- The next state of a step, if it answers one. -/
def after (s : State) : Option State :=
  match step s with
  | .next t => some t
  | .fault _ => none
  | .refused _ => none

/-- run_state, pc and rb after one step. -/
def regsAfter (s : State) : Option (RunState × Word × Word) := (after s).map fun t => (t.runState, t.pc, t.rb)

/-- A cell and pc after one step. -/
def cellAfter (s : State) (a : Nat) : Option (Word × Word) := (after s).map fun t => (t.mem.read a, t.pc)

/-- The fault report after one step: cause, fault_val, pc. -/
def faultAfter (s : State) : Option (Nat × Word × Word) := (after s).map fun t => (t.causeCode, t.faultVal, t.pc)

/-! ### Well-formedness: one ill-formed term for each check -/

theorem test_wf_accepts : SplitInstr.wellFormed ⟨2, 0, 1, 0, [4, 3, 4]⟩ = true := by decide
theorem test_wf_refuses_mode_of_absent_operand : SplitInstr.wellFormed ⟨99, 3, 0, 0, []⟩ = false := by decide
theorem test_wf_refuses_mode_c : SplitInstr.wellFormed ⟨1, 0, 0, 3, [0, 0, 0]⟩ = false := by decide
theorem test_wf_refuses_opcode_zero : SplitInstr.wellFormed ⟨0, 0, 0, 0, []⟩ = false := by decide
theorem test_wf_refuses_opcode_ten : SplitInstr.wellFormed ⟨10, 0, 0, 0, []⟩ = false := by decide
theorem test_wf_refuses_missing_operand : SplitInstr.wellFormed ⟨5, 0, 0, 0, [1]⟩ = false := by decide
theorem test_wf_refuses_extra_operand : SplitInstr.wellFormed ⟨99, 0, 0, 0, [1]⟩ = false := by decide

/-! ### Decoding: words written out from R51, w = opcode + 100 m1 + 1000 m2 + 10000 m3 -/

theorem test_decode_add : decode [21101, 3, 4, 0] =
    .ok (.add ⟨.immediate, 3⟩ ⟨.immediate, 4⟩ ⟨.relative, 0⟩, []) := by rfl
theorem test_decode_mul : decode [1002, 4, 3, 4] =
    .ok (.mul ⟨.position, 4⟩ ⟨.immediate, 3⟩ ⟨.position, 4⟩, []) := by rfl
theorem test_decode_in : decode [203, 2, 99] = .ok (.inp ⟨.relative, 2⟩, [99]) := by rfl
theorem test_decode_out : decode [204, wrap64 (-2), 99, 42] = .ok (.out ⟨.relative, wrap64 (-2)⟩, [99, 42]) := by rfl
theorem test_decode_jit : decode [1205, 0, 2] = .ok (.jit ⟨.relative, 0⟩ ⟨.immediate, 2⟩, []) := by rfl
theorem test_decode_jif : decode [1006, 101, 0] = .ok (.jif ⟨.position, 101⟩ ⟨.immediate, 0⟩, []) := by rfl
theorem test_decode_lt : decode [1107, wrap64 (-1), 8, 3] =
    .ok (.lt ⟨.immediate, wrap64 (-1)⟩ ⟨.immediate, 8⟩ ⟨.position, 3⟩, []) := by rfl
theorem test_decode_eq : decode [1008, 100, 16, 101] =
    .ok (.eq ⟨.position, 100⟩ ⟨.immediate, 16⟩ ⟨.position, 101⟩, []) := by rfl
theorem test_decode_srb : decode [109, 7] = .ok (.srb ⟨.immediate, 7⟩, []) := by rfl
/-- DE3: 22299, the largest legal opcode word. -/
theorem test_decode_hlt : decode [22299, 1] = .ok (.hlt, [1]) := by rfl
theorem test_decode_truncated : decode [1105, 1] = .error .truncated := by rfl

theorem test_encode_canonical : encode (.mul ⟨.position, 4⟩ ⟨.immediate, 3⟩ ⟨.position, 4⟩) = [1002, 4, 3, 4] := by decide
/-- `out [0]` is the word 4 and then 0: the table's row `out`, whose bits above the first 8 are 0. -/
theorem test_table_word_out : decodeTableWord 8 4 = some (.out ⟨.position, 0⟩) := by rfl
/-- 1105,1,4: the operand words are bits 64 to 127 and 128 to 191. -/
theorem test_table_word_jit : decodeTableWord 192 (1105 + 1 * 2 ^ 64 + 4 * 2 ^ 128) =
    some (.jit ⟨.immediate, 1⟩ ⟨.immediate, 4⟩) := by rfl
theorem test_table_word_runs : regsAfter (State.reset.withFetchWord 8 99) = some (.halted, 0, 0) := by decide

/-! ### Decode faults, by one step (R61, R127) -/

/-- DE4 -/
theorem test_fault_zero : faultAfter (boot [0]) = some (1, 0, 0) := by decide
/-- DE7: not a halt -/
theorem test_fault_negative_word : faultAfter (boot [wrap64 (-99)]) = some (1, wrap64 (-99), 0) := by decide
/-- DE8: the mode of an operand hlt does not have -/
theorem test_fault_unused_mode : faultAfter (boot [399]) = some (2, 399, 0) := by decide
/-- DE13: mode before opcode -/
theorem test_fault_mode_first : faultAfter (boot [377]) = some (2, 377, 0) := by decide
/-- DE11: digits above the ten-thousands -/
theorem test_fault_high_digits : faultAfter (boot [100001]) = some (2, 100001, 0) := by decide
/-- X2: START_PC = -1 is no halt -/
theorem test_fault_negative_pc : faultAfter ((boot [99]).applyReset (wrap64 (-1))) =
    some (4, wrap64 (-1), wrap64 (-1)) := by decide
/-- T1, its last step: an operand word past AMAX -/
theorem test_fault_operand_past_top :
    faultAfter { State.reset with mem := [(9223372036854775807, 109)], pc := maxWord } =
      some (4, minWord, maxWord) := by decide

/-! ### One or two steps per instruction -/

/-- A3: the sum wraps. -/
theorem test_add_wraps : cellAfter (boot [1101, maxWord, 1, 5, 99, 0]) 5 = some (minWord, 4) := by decide
/-- A4: sources and destination are the opcode word's own cell. -/
theorem test_add_same_cell : cellAfter (boot [1, 0, 0, 0, 99]) 0 = some (2, 4) := by decide
/-- M3 -/
theorem test_mul_wraps :
    cellAfter (boot [1102, 3037000500, 3037000500, 5, 99, 0]) 5 = some (wrap64 (-9223372036709301616), 4) := by decide
/-- M11: immediate destination, fault_val the raw word 0 -/
theorem test_mul_immediate_destination : faultAfter (boot [11102, 2, 3, 0, 99]) = some (3, 0, 0) := by decide
/-- I11: the input word becomes the next instruction. -/
theorem test_in_stores : cellAfter (boot [3, 2, 0] [99]) 2 = some (99, 2) := by decide
/-- I3: the word is consumed although the write faults. -/
theorem test_in_loses_word :
    (after (boot [103, 0, 99] [5, 6])).map (fun t => (t.causeCode, t.inEnv)) = some (3, ⟨[.value 6], .ended⟩) := by decide
/-- I13, first step -/
theorem test_out_sends : (after (boot [104, minWord, 104, maxWord, 99])).map (fun t => (t.sent, t.pc)) =
    some ([minWord], 2) := by decide
/-- W5: the read comes first, no send is made. -/
theorem test_out_reads_first :
    (after { boot [4, wrap64 (-1), 99] with outEnv := ⟨[.wait], .accepts⟩ }).map (fun t => (t.causeCode, t.outEnv)) =
      some (4, ⟨[.wait], .accepts⟩) := by decide
/-- J16: any non-zero Word is true. -/
theorem test_jit_negative_is_true : regsAfter (boot [1105, minWord, 3, 99]) = some (.running, 3, 0) := by decide
/-- J3: a taken jump to -1 halts with pc kept. -/
theorem test_jit_sentinel : regsAfter (boot [1105, 1, wrap64 (-1), 99]) = some (.halted, 0, 0) := by decide
/-- J8: untaken -/
theorem test_jif_untaken : regsAfter (boot [1106, 7, 0, 99]) = some (.running, 3, 0) := by decide
/-- J5 for jif: the target is read although the jump is not taken (106: a immediate, b position). -/
theorem test_jif_reads_target : faultAfter (boot [106, 1, wrap64 (-5), 99]) = some (4, wrap64 (-5), 0) := by decide
/-- CM6: the difference overflows, the comparison does not. -/
theorem test_lt_extremes : cellAfter (boot [1107, minWord, maxWord, 5, 99, 7]) 5 = some (1, 4) := by decide
/-- CM7 -/
theorem test_lt_reverse : cellAfter (boot [1107, maxWord, minWord, 5, 99, 7]) 5 = some (0, 4) := by decide
/-- CM13 -/
theorem test_eq_same_cell : cellAfter (boot [8, 0, 0, 0, 99]) 0 = some (1, 4) := by decide
/-- CM10 -/
theorem test_eq_extremes : cellAfter (boot [1108, minWord, maxWord, 5, 99, 7]) 5 = some (0, 4) := by decide
/-- RB3, second step: rb wraps. -/
theorem test_srb_wraps : regsAfter { boot [109, 1, 99] with rb := maxWord } = some (.running, 2, minWord) := by decide
/-- R110: `srb [rb+4]` with rb = 5 reads Mem[9] at the old rb. -/
theorem test_srb_reads_old_rb :
    regsAfter { boot [209, 4, 0, 0, 0, 0, 0, 0, 0, 6] with rb := 5 } = some (.running, 2, 11) := by decide
/-- H1 -/
theorem test_hlt_keeps_pc : regsAfter (boot [99]) = some (.halted, 0, 0) := by decide
/-- DE3: legal modes of absent operands are ignored. -/
theorem test_hlt_unused_modes : regsAfter (boot [22299]) = some (.halted, 0, 0) := by decide

/-! ### Ports and reset -/

/-- W1, first attempt: a stall leaves the core as it was. -/
theorem test_in_waits :
    after { boot [3, 0, 99] with inEnv := ⟨[.wait, .value 5], .ended⟩ } =
      some { boot [3, 0, 99] with inEnv := ⟨[.value 5], .ended⟩ } := by decide
/-- W2, first attempt: nothing is delivered. -/
theorem test_out_waits :
    after { boot [104, 7, 99] with outEnv := ⟨[.wait, .accept], .accepts⟩ } =
      some { boot [104, 7, 99] with outEnv := ⟨[.accept], .accepts⟩ } := by decide
/-- R140: reset out of FAULTED keeps Mem. -/
theorem test_reset_keeps_mem :
    ((boot [7, 8]).raise ⟨.addressFault, 1⟩).applyReset 3 = { boot [7, 8] with pc := 3 } := by decide
/-- R141: zero words of an image are not listed. -/
theorem test_image_canonical : Memory.ofImage [5, 0, 6] = [(0, 5), (2, 6)] := by decide
/-- R33: writing 0 takes the entry out. -/
theorem test_write_zero : Memory.write [(0, 5), (2, 6)] 2 0 = [(0, 5)] := by decide
theorem test_wf_refuses_memory : Memory.wf [(2, 6), (0, 5)] = false ∧ Memory.wf [(1, 0)] = false ∧
    Memory.wf [(9223372036854775808, 1)] = false := by decide

/-! ### Witnesses: states and operands that meet the hypotheses of each obligation, at boundary values -/

/-- A RUNNING state with pc at the top of memory, another at 0. -/
abbrev topState : State := { State.reset with pc := maxWord }

theorem witness_SequentialPcNeverWrapsToAnAddress :
    let low : State := { State.reset with pc := wrap64 9223372036854775803 }
    (0 ≤ low.pc.toInt ∧ 1 ≤ 4 ∧ low.pc.toInt + (4 : Nat) ≤ Config.amax) ∧
      (0 ≤ topState.pc.toInt ∧ 1 ≤ 4 ∧ (Config.amax : Int) < topState.pc.toInt + (1 : Nat)) := by decide

theorem witness_EveryWordHasItsDecodeOutcome :
    (wrap64 (-1)).toInt < 0 ∧
      (0 ≤ (300 : Word).toInt ∧ 2 < (300 : Word).toInt / 100 % 10) ∧
      (0 ≤ (3000 : Word).toInt ∧ 2 < (3000 : Word).toInt / 1000 % 10) ∧
      (0 ≤ maxWord.toInt ∧ 2 < maxWord.toInt / 10000) ∧
      (0 ≤ (22298 : Word).toInt ∧ (22298 : Word).toInt / 100 % 10 ≤ 2 ∧ (22298 : Word).toInt / 1000 % 10 ≤ 2 ∧
        (22298 : Word).toInt / 10000 ≤ 2 ∧
        ¬ ((1 ≤ (22298 : Word).toInt % 100 ∧ (22298 : Word).toInt % 100 ≤ 9) ∨ (22298 : Word).toInt % 100 = 99)) ∧
      (0 ≤ (22209 : Word).toInt ∧ (22209 : Word).toInt / 100 % 10 ≤ 2 ∧ (22209 : Word).toInt / 1000 % 10 ≤ 2 ∧
        (22209 : Word).toInt / 10000 ≤ 2 ∧
        ((1 ≤ (22209 : Word).toInt % 100 ∧ (22209 : Word).toInt % 100 ≤ 9) ∨ (22209 : Word).toInt % 100 = 99)) := by
  decide

theorem witness_UnusedModeFieldsHaveNoEffect :
    Opcode.jif.arity ≤ 2 ∧ Opcode.srb.arity ≤ 1 ∧ Opcode.hlt.arity = 0 := by decide

theorem witness_DecodingKeepsEveryOperandWord :
    decode (1002 :: [4, 3, 4, 33]) = .ok (.mul ⟨.position, 4⟩ ⟨.immediate, 3⟩ ⟨.position, 4⟩, [33]) := by rfl

theorem witness_MemoryReadAndWriteContract :
    (wrap64 (-1)).toInt < 0 ∧ 0 ≤ (0 : Word).toInt ∧ 0 ≤ maxWord.toInt := by decide

theorem witness_FetchSeesOnlyPcAndMemory :
    (boot [99]).pc = ({ boot [99] with rb := 7, sent := [1] } : State).pc ∧
      (boot [99]).mem = ({ boot [99] with rb := 7, sent := [1] } : State).mem := by decide

/-- A RUNNING state with rb = 2: position, immediate and relative operands. -/
abbrev opState : State := { boot [1, 2, 3, 4, 5] [8] with rb := 2 }

/-- For add, mul, lt and eq: each source mode, and a destination at address 0, at AMAX, and relative. -/
theorem witness_AddStoresTheWrappedSum :
    0 ≤ opState.pc.toInt ∧ opState.readable ⟨.position, maxWord⟩ = true ∧
      opState.readable ⟨.immediate, wrap64 (-1)⟩ = true ∧ opState.readable ⟨.relative, wrap64 (-2)⟩ = true ∧
      opState.destCell ⟨.position, 0⟩ = some 0 ∧
      opState.destCell ⟨.position, maxWord⟩ = some 9223372036854775807 ∧
      opState.destCell ⟨.relative, wrap64 (-2)⟩ = some 0 := by decide

theorem witness_MulStoresTheWrappedProduct :
    0 ≤ opState.pc.toInt ∧ opState.readable ⟨.relative, 1⟩ = true ∧ opState.readable ⟨.immediate, minWord⟩ = true ∧
      opState.destCell ⟨.relative, 3⟩ = some 5 := by decide

theorem witness_LtStoresTheSignedComparison :
    0 ≤ opState.pc.toInt ∧ opState.readable ⟨.immediate, minWord⟩ = true ∧
      opState.readable ⟨.position, 0⟩ = true ∧ opState.destCell ⟨.position, 3⟩ = some 3 := by decide

theorem witness_EqStoresTheEquality :
    0 ≤ opState.pc.toInt ∧ opState.readable ⟨.position, 4⟩ = true ∧ opState.readable ⟨.relative, 2⟩ = true ∧
      opState.destCell ⟨.relative, 0⟩ = some 2 := by decide

theorem witness_InStoresTheNextInputWord :
    0 ≤ opState.pc.toInt ∧ opState.inAnswer = .value 8 ∧ opState.destCell ⟨.relative, wrap64 (-2)⟩ = some 0 := by decide

theorem witness_OutSendsItsOperand :
    0 ≤ opState.pc.toInt ∧ opState.readable ⟨.relative, wrap64 (-2)⟩ = true ∧ opState.outAnswer = .accept := by decide

/-- Targets above, at and below -1; conditions zero and not zero. -/
theorem witness_JitJumpsWhenNonZero :
    0 ≤ opState.pc.toInt ∧ opState.readable ⟨.immediate, 0⟩ = true ∧ opState.readable ⟨.position, 4⟩ = true ∧
      opState.sourceValue ⟨.immediate, 0⟩ = 0#64 ∧ opState.sourceValue ⟨.position, 4⟩ ≠ 0#64 ∧
      opState.readable ⟨.immediate, wrap64 (-1)⟩ = true ∧
      (opState.sourceValue ⟨.immediate, wrap64 (-1)⟩).toInt = -1 ∧
      (opState.sourceValue ⟨.immediate, wrap64 (-2)⟩).toInt ≠ -1 := by decide

theorem witness_JifJumpsWhenZero :
    0 ≤ opState.pc.toInt ∧ opState.readable ⟨.position, 9⟩ = true ∧ opState.sourceValue ⟨.position, 9⟩ = 0#64 ∧
      opState.readable ⟨.relative, 0⟩ = true ∧ opState.sourceValue ⟨.relative, 0⟩ ≠ 0#64 ∧
      (opState.sourceValue ⟨.immediate, wrap64 (-1)⟩).toInt = -1 := by decide

theorem witness_SrbAddsToTheRelativeBase :
    0 ≤ topState.pc.toInt ∧ topState.readable ⟨.relative, maxWord⟩ = true := by decide

theorem witness_CommitTreatsMinusOneAsHalt :
    opState.readable ⟨.position, 4⟩ = true ∧ opState.readable ⟨.immediate, wrap64 (-1)⟩ = true ∧
      opState.sourceValue ⟨.position, 4⟩ ≠ 0#64 ∧ opState.sourceValue ⟨.position, 9⟩ = 0#64 ∧
      opState.runState = .running ∧ (wrap64 (-2)).toInt < -1 := by decide

/-- The two fault clauses: a raw word of -1, and rb = 2 with an offset of -3. -/
theorem witness_OperandReadByMode :
    (wrap64 (-1)).toInt < 0 ∧ (wrap64 (opState.rb.toInt + (wrap64 (-3)).toInt)).toInt < 0 := by decide

/-- Each of the four clauses: a unreadable; b unreadable; an immediate destination; a negative destination. -/
theorem witness_ThreeOperandFaultsInOrder :
    (opState.opAddr ⟨.position, wrap64 (-1)⟩ = some (wrap64 (-1)) ∧ (wrap64 (-1)).toInt < 0) ∧
      (opState.readable ⟨.immediate, 1⟩ = true ∧
        opState.opAddr ⟨.relative, wrap64 (-3)⟩ = some (wrap64 (-1)) ∧ (wrap64 (-1)).toInt < 0) ∧
      (opState.readable ⟨.immediate, 1⟩ = true ∧ opState.readable ⟨.position, 0⟩ = true ∧
        (⟨.immediate, 3⟩ : Operand).mode = .immediate) ∧
      (opState.readable ⟨.immediate, 1⟩ = true ∧ opState.readable ⟨.position, 0⟩ = true ∧
        opState.opAddr ⟨.position, minWord⟩ = some minWord ∧ minWord.toInt < 0) := by decide

theorem witness_SourceFaultsOfOutSrbAndJumps :
    minWord.toInt < 0 ∧ opState.opAddr ⟨.position, minWord⟩ = some minWord ∧
      opState.readable ⟨.immediate, 0⟩ = true := by decide

theorem witness_ImmediateDestinationFaults :
    (⟨.immediate, 3⟩ : Operand).mode = .immediate ∧ opState.readable ⟨.position, 0⟩ = true ∧
      opState.readable ⟨.relative, wrap64 (-2)⟩ = true ∧ opState.inAnswer = .value 8 := by decide

theorem witness_InConsumesItsWordBeforeAnAddressFault :
    opState.inAnswer = .value 8 ∧ opState.opAddr ⟨.relative, wrap64 (-3)⟩ = some (wrap64 (-1)) ∧
      (wrap64 (-1)).toInt < 0 := by decide

theorem witness_EndOfInputFaults : (boot [3, 0, 99]).inAnswer = .ended := by decide

theorem witness_WaitAnswersStall :
    ({ boot [] with inEnv := ⟨[.wait, .value 5], .ended⟩ } : State).inAnswer = .wait ∧
      ({ boot [] with inEnv := ⟨[], .waits⟩ } : State).inAnswer = .wait ∧
      ({ boot [] with outEnv := ⟨[.wait], .accepts⟩ } : State).readable ⟨.position, 0⟩ = true ∧
      ({ boot [] with outEnv := ⟨[.wait], .accepts⟩ } : State).outAnswer = .wait ∧
      ({ boot [] with outEnv := ⟨[], .waits⟩ } : State).outAnswer = .wait := by decide

/-- At address 0, and at the last place where the instruction still lies within the address space. -/
theorem witness_StepRunsTheDecodedInstruction :
    let i : Instr := .mul ⟨.position, 4⟩ ⟨.immediate, 3⟩ ⟨.position, 4⟩
    let s := boot [1002, 4, 3, 4, 33]
    s.runState = .running ∧ 0 ≤ s.pc.toInt ∧ s.pc.toInt + i.size ≤ Config.amax + 1 ∧
      decode ((List.range i.size).map fun k => s.mem.read (s.pc.toNat + k)) = .ok (i, []) ∧ i.wellFormed = true := by
  refine ⟨rfl, by decide, by decide, rfl, by decide⟩

theorem witness_StepRunsTheDecodedInstruction_at_top :
    let s : State := { topState with mem := [(9223372036854775807, 99)] }
    s.runState = .running ∧ 0 ≤ s.pc.toInt ∧ s.pc.toInt + Instr.hlt.size ≤ Config.amax + 1 ∧
      decode ((List.range Instr.hlt.size).map fun k => s.mem.read (s.pc.toNat + k)) = .ok (.hlt, []) ∧
      Instr.hlt.wellFormed = true := by
  refine ⟨rfl, by decide, by decide, rfl, by decide⟩

theorem witness_EncodedInstructionRunsWherePlaced :
    topState.runState = .running ∧ 0 ≤ topState.pc.toInt ∧
      topState.pc.toInt + Instr.hlt.size ≤ Config.amax + 1 := by decide

theorem witness_TableWordRunsWherePlaced :
    let s : State := { State.reset with pc := wrap64 9223372036854775804 }
    s.runState = .running ∧ 0 ≤ s.pc.toInt ∧ s.pc.toInt + 4 ≤ Config.amax + 1 ∧
      decodeTableWord 8 4 = some (.out ⟨.position, 0⟩) := by
  refine ⟨rfl, by decide, by decide, rfl⟩

theorem witness_FetchFaults :
    (boot []).runState = .running ∧ ({ boot [] with pc := wrap64 (-1) } : State).pc.toInt < 0 ∧
      0 ≤ topState.pc.toInt ∧ topState.mem.read topState.pc.toNat = 0#64 := by decide

theorem witness_UnknownOpcodeFaults :
    (boot [wrap64 (-1)]).runState = .running ∧ 0 ≤ (boot [wrap64 (-1)]).pc.toInt ∧
      (boot [wrap64 (-1)]).mem.read 0 = wrap64 (-1) ∧ (wrap64 (-1)).toInt < 0 ∧
      (boot [22298]).mem.read 0 = 22298 ∧ (22298 : Word).toInt / 100 % 10 ≤ 2 ∧
      (22298 : Word).toInt / 1000 % 10 ≤ 2 ∧ (22298 : Word).toInt / 10000 ≤ 2 ∧
      ¬ ((1 ≤ (22298 : Word).toInt % 100 ∧ (22298 : Word).toInt % 100 ≤ 9) ∨ (22298 : Word).toInt % 100 = 99) := by
  decide

theorem witness_UnknownModeFaults :
    (boot [30099]).runState = .running ∧ 0 ≤ (boot [30099]).pc.toInt ∧ (boot [30099]).mem.read 0 = 30099 ∧
      0 ≤ (30099 : Word).toInt ∧ 2 < (30099 : Word).toInt / 10000 := by decide

theorem witness_OperandFetchPastTheTopFaults :
    let s : State := { topState with mem := [(9223372036854775807, 109)] }
    s.runState = .running ∧ 0 ≤ s.pc.toInt ∧
      decodeHead (s.mem.read s.pc.toNat) = .ok ⟨.srb, .immediate, .position, .position⟩ ∧
      (Config.amax : Int) < s.pc.toInt + Opcode.srb.arity := by
  refine ⟨rfl, by decide, rfl, by decide⟩

/-- J4, and the same for jif. -/
theorem witness_JumpBelowMinusOneFaultsAtTheNextFetch :
    let s := boot [1105, 1, wrap64 (-2), 99]
    let r := boot [1106, 0, minWord, 99]
    (s.runState = .running ∧ s.readable ⟨.immediate, 1⟩ = true ∧ s.readable ⟨.immediate, wrap64 (-2)⟩ = true ∧
        (s.sourceValue ⟨.immediate, wrap64 (-2)⟩).toInt < -1 ∧
        s.fetchInstr = .ok (.jit ⟨.immediate, 1⟩ ⟨.immediate, wrap64 (-2)⟩) ∧
        s.sourceValue ⟨.immediate, 1⟩ ≠ 0#64) ∧
      (r.runState = .running ∧ r.readable ⟨.immediate, 0⟩ = true ∧ r.readable ⟨.immediate, minWord⟩ = true ∧
        (r.sourceValue ⟨.immediate, minWord⟩).toInt < -1 ∧
        r.fetchInstr = .ok (.jif ⟨.immediate, 0⟩ ⟨.immediate, minWord⟩) ∧
        r.sourceValue ⟨.immediate, 0⟩ = 0#64) := by
  refine ⟨⟨rfl, rfl, rfl, by decide, rfl, by decide⟩, ⟨rfl, rfl, rfl, by decide, rfl, rfl⟩⟩

/-- J9, and the same for jif. -/
theorem witness_JumpToItselfLoopsForEver :
    let s := boot [1105, 1, 0]
    let r := boot [1106, 0, 0]
    (s.runState = .running ∧ s.readable ⟨.immediate, 1⟩ = true ∧ s.readable ⟨.immediate, 0⟩ = true ∧
        s.sourceValue ⟨.immediate, 0⟩ = s.pc ∧ s.fetchInstr = .ok (.jit ⟨.immediate, 1⟩ ⟨.immediate, 0⟩) ∧
        s.sourceValue ⟨.immediate, 1⟩ ≠ 0#64) ∧
      (r.runState = .running ∧ r.readable ⟨.immediate, 0⟩ = true ∧ r.sourceValue ⟨.immediate, 0⟩ = r.pc ∧
        r.fetchInstr = .ok (.jif ⟨.immediate, 0⟩ ⟨.immediate, 0⟩) ∧ r.sourceValue ⟨.immediate, 0⟩ = 0#64) := by
  refine ⟨⟨rfl, rfl, rfl, rfl, rfl, by decide⟩, ⟨rfl, rfl, rfl, rfl, rfl⟩⟩

/-- W4, and the same for out. -/
theorem witness_EndlessWaitStallsForEver :
    let s : State := { boot [3, 0, 99] with inEnv := ⟨[], .waits⟩ }
    let r : State := { boot [4, 0, 99] with outEnv := ⟨[], .waits⟩ }
    (s.runState = .running ∧ s.fetchInstr = .ok (.inp ⟨.position, 0⟩) ∧ s.inEnv = ⟨[], .waits⟩ ∧
        ∀ j, s.inEnv.answerAt j = .wait) ∧
      (r.runState = .running ∧ r.fetchInstr = .ok (.out ⟨.position, 0⟩) ∧ r.readable ⟨.position, 0⟩ = true ∧
        r.outEnv = ⟨[], .waits⟩ ∧ ∀ j, r.outEnv.answerAt j = .wait) := by
  refine ⟨⟨rfl, rfl, rfl, fun _ => rfl⟩, ⟨rfl, rfl, rfl, rfl, fun _ => rfl⟩⟩

/-- An environment that gives the word 7 for ever. -/
theorem witness_EndlessInputNeverExhausts :
    let s : State := { boot [3, 0, 99] with inEnv := ⟨[.wait], .repeats 7⟩ }
    (∀ j, s.inEnv.answerAt j ≠ .ended) ∧ s.cause ≠ some .inputExhausted ∧ ∃ t, runSteps 2 s = .next t := by
  refine ⟨fun j => ?_, by decide, _, rfl⟩
  cases j <;> simp [InEnv.answerAt, InRest.answerAt, InEvent.answer]

/-- An environment that ends, one whose answers never end, and an oracle's own sequence. -/
theorem witness_PortAnswersComeInOrder :
    let ends : Nat → InAnswer := fun k => if k < 2 then .value 5 else .ended
    (∀ k, ends k = .ended → ends (k + 1) = .ended) ∧ ends 2 = .ended ∧ (InEnv.mk [.wait] .ended).answerAt 1 = .ended := by
  refine ⟨fun k h => ?_, rfl, rfl⟩
  have hk : ¬ k < 2 := fun hk => by simp [hk] at h
  simp [show ¬ k + 1 < 2 by omega]

theorem witness_HaltedAndFaultedAreTerminal :
    ({ boot [99] with runState := .halted } : State).runState ≠ .running ∧
      ((boot [99]).raise ⟨.addressFault, wrap64 (-1)⟩).runState ≠ .running := by decide

/-- An instruction that completes, with a cell that is not its destination's; and one without a destination. -/
theorem witness_ExecChangesOnlyWhatTheAccessSummaryAllows :
    (∃ t, exec (.add ⟨.position, 0⟩ ⟨.immediate, 1⟩ ⟨.position, 3⟩) opState = .next t) ∧
      opState.destCell ⟨.position, 3⟩ ≠ some 4 ∧
      (∃ t, exec (.srb ⟨.immediate, 1⟩) opState = .next t) ∧ (Instr.srb ⟨.immediate, 1⟩).dest = none :=
  ⟨⟨_, rfl⟩, by decide, ⟨_, rfl⟩, rfl⟩

theorem witness_OnlySrbChangesTheRelativeBase :
    ∃ t, step (boot [109, 7]) = .next t ∧ t.rb ≠ (boot [109, 7]).rb := ⟨_, rfl, by decide⟩

/-- Each clause: an out accepted, an out waiting, an in given a value, an in at the end of the input, no in, no out. -/
theorem witness_PortTrafficOfAStep :
    (∃ t, step (boot [104, 7]) = .next t ∧ (boot [104, 7]).runState = .running ∧
        (boot [104, 7]).fetchInstr = .ok (.out ⟨.immediate, 7⟩) ∧
        (boot [104, 7]).readable ⟨.immediate, 7⟩ = true ∧ (boot [104, 7]).outAnswer = .accept ∧
        ∀ a, (boot [104, 7]).fetchInstr ≠ .ok (.inp a)) ∧
      (∃ t, step { boot [104, 7] with outEnv := ⟨[], .waits⟩ } = .next t ∧
        ({ boot [104, 7] with outEnv := ⟨[], .waits⟩ } : State).outAnswer = .wait) ∧
      (∃ t, step (boot [3, 0] [8]) = .next t ∧ (boot [3, 0] [8]).runState = .running ∧
        (boot [3, 0] [8]).fetchInstr = .ok (.inp ⟨.position, 0⟩) ∧ (boot [3, 0] [8]).inAnswer = .value 8 ∧
        ∀ a, (boot [3, 0] [8]).fetchInstr ≠ .ok (.out a)) ∧
      (∃ t, step (boot [3, 0]) = .next t ∧ (boot [3, 0]).fetchInstr = .ok (.inp ⟨.position, 0⟩) ∧
        ∀ v, (boot [3, 0]).inAnswer ≠ .value v) := by
  refine ⟨⟨_, rfl, rfl, rfl, rfl, rfl, fun a h => ?_⟩, ⟨_, rfl, rfl⟩, ⟨_, rfl, rfl, rfl, rfl, fun a h => ?_⟩,
    ⟨_, rfl, rfl, fun v h => ?_⟩⟩ <;> cases h

theorem witness_PortSequencesOverRuns : ∃ t, runSteps 2 (boot [3, 5, 104, 7] [8]) = .next t := ⟨_, rfl⟩

/-- A fault after a word was consumed (I3). -/
theorem witness_FaultsArePrecise :
    (boot [103, 0, 99] [5]).runState = .running ∧
      ∃ t, step (boot [103, 0, 99] [5]) = .next t ∧ t.runState = .faulted := ⟨rfl, _, rfl, rfl⟩

theorem witness_OnlyHltAndJumpsToMinusOneHalt :
    (boot [1105, 1, wrap64 (-1)]).runState = .running ∧
      ∃ t, step (boot [1105, 1, wrap64 (-1)]) = .next t ∧ t.runState = .halted := ⟨rfl, _, rfl, rfl⟩

theorem witness_StepKeepsTheInvariant :
    (boot [1101, 1, 1, 5]).Inv ∧ ∃ t, step (boot [1101, 1, 1, 5]) = .next t := ⟨⟨rfl, rfl, rfl⟩, _, rfl⟩

theorem witness_ResetStartsARunFromAnyState : ((boot [7, 0, 8]).raise ⟨.addressFault, minWord⟩).mem.wf = true := by decide

/-- W1: two waits, then a value; and the same environment with no wait in it. -/
theorem witness_WaitsDelayButChangeNoOutcome :
    let e : InEnv := ⟨[.wait, .wait, .value 5], .ended⟩
    (∃ t, runSteps 3 { boot [3, 0, 99] with inEnv := e } = .next t) ∧ e.SameButForWaits ⟨[.value 5], .ended⟩ ∧
      (OutEnv.mk [] .accepts).SameButForWaits ⟨[], .accepts⟩ := by
  refine ⟨⟨_, rfl⟩, ⟨(· + 2), fun a b h => by simpa using h, fun k => ?_, fun n h => ?_⟩,
    ⟨id, strictMono_id, fun _ => rfl, fun n h => absurd rfl (h n)⟩⟩
  · cases k <;> rfl
  · match n with
    | 0 => rfl
    | 1 => rfl
    | n + 2 => exact absurd rfl (h n)

theorem witness_UnreadInputHasNoInfluence :
    (∀ a, Instr.out ⟨.immediate, 7⟩ ≠ .inp a) ∧ ∃ t, exec (.out ⟨.immediate, 7⟩) opState = .next t :=
  ⟨by simp, _, rfl⟩

theorem witness_OutputHistoryHasNoInfluence : ∃ t, step (boot [104, 7]) = .next t := ⟨_, rfl⟩

end Sys2Proof.Tests
end

/-!
PROOFS. The memory accesses of the core (spec/20_memory.md R32 to R34): the rules of a write, which complete those of a read
in Laws/Operands.lean, and the contract assembled from them.
-/

namespace Sys2Proof.Machine

/-- R33. -/
theorem State.memWrite_of_nonneg {s : State} {a : Word} (v : Word) (h : 0 ≤ a.toInt) :
    s.memWrite a v = .ok { s with mem := s.mem.write a.toNat v } :=
  if_neg (by omega)

/-- R34. -/
theorem State.memWrite_of_neg {s : State} {a : Word} (v : Word) (h : a.toInt < 0) :
    s.memWrite a v = .error ⟨.addressFault, a⟩ :=
  if_pos h

/-- R32, R33: two addresses name the same cell only when they are the same Word (`BitVec.toNat_inj`), so the cell that
gives the written Word is the addressed one alone. -/
theorem State.memRead_write (s : State) (a v : Word) {b : Word} (hb : 0 ≤ b.toInt) :
    State.memRead { s with mem := s.mem.write a.toNat v } b = if b = a then .ok v else s.memRead b := by
  rw [State.memRead_of_nonneg hb, State.memRead_of_nonneg hb, Memory.read_write]
  simp only [BitVec.toNat_inj]
  split <;> rfl

/-- Settles O11: the rules of a read and of a write at each sign of the address, and what a read gives after a write. -/
theorem memoryReadAndWriteContract : Obligations.MemoryReadAndWriteContract := by
  intro s addr v
  refine ⟨fun hneg => ⟨State.memRead_of_neg hneg, State.memWrite_of_neg v hneg⟩, fun hpos => ?_⟩
  exact ⟨State.memRead_of_nonneg hpos, _, State.memWrite_of_nonneg v hpos, rfl, fun _ => State.memRead_write s addr v⟩

end Sys2Proof.Machine

/-!
PROOFS. A source operand in each mode and the commit of a next-pc (spec/40_step_and_operands.md R75, R76, R79): the
effective address by mode, what the commit and the jumps do with a next-pc, and the fetch at a negative pc.
-/

namespace Sys2Proof.Machine

/-! ### Operands by mode (R75, R76) -/

@[simp] theorem State.opAddr_position (s : State) (r : Word) : s.opAddr ⟨.position, r⟩ = some r := rfl

@[simp] theorem State.opAddr_immediate (s : State) (r : Word) : s.opAddr ⟨.immediate, r⟩ = none := rfl

@[simp] theorem State.opAddr_relative (s : State) (r : Word) :
    s.opAddr ⟨.relative, r⟩ = some (wrap64 (s.rb.toInt + r.toInt)) := rfl

theorem State.opRead_of_opAddr_none {s : State} {o : Operand} (h : s.opAddr o = none) : s.opRead o = .ok o.raw := by
  simp only [State.opRead, h]

theorem State.opRead_of_opAddr_some {s : State} {o : Operand} {ea : Word} (h : s.opAddr o = some ea) :
    s.opRead o = s.memRead ea := by
  simp only [State.opRead, h]

/-- Settles O14: the effective address of each mode, read from memory, with the rule of a read at a negative address. -/
theorem operandReadByMode : Obligations.OperandReadByMode := by
  intro s r
  have hpos : s.opRead ⟨.position, r⟩ = s.memRead r := State.opRead_of_opAddr_some (s.opAddr_position r)
  have hrel : s.opRead ⟨.relative, r⟩ = s.memRead (wrap64 (s.rb.toInt + r.toInt)) :=
    State.opRead_of_opAddr_some (s.opAddr_relative r)
  exact ⟨State.opRead_of_opAddr_none (s.opAddr_immediate r), hpos, hrel,
    fun hneg => hpos.trans (State.memRead_of_neg hneg), fun hneg => hrel.trans (State.memRead_of_neg hneg)⟩

/-! ### The commit, and the instructions that can commit -1 (R79, R100, R101, R113) -/

/-- R79, with the sentinel as the integer it is. -/
theorem State.commit_eq_ite (s : State) (next : Word) :
    s.commit next = if next.toInt = -1 then { s with runState := .halted } else { s with pc := next } := by
  simp only [State.commit, eq_haltSentinel_iff]

/-- R113: hlt commits the sentinel. -/
theorem exec_hlt (s : State) : exec .hlt s = .next (s.commit haltSentinel) := rfl

/-- R100. -/
theorem exec_jit (a b : Operand) (s : State) : exec (.jit a b) s = execJump wordTrue a b s := rfl

/-- R101. -/
theorem exec_jif (a b : Operand) (s : State) : exec (.jif a b) s = execJump wordFalse a b s := rfl

/-- R78, R100, R101: a jump whose two operands are readable commits b's value or the sequential next pc. -/
theorem execJump_of_readable {taken : Word → Bool} {a b : Operand} {s : State} (ha : s.readable a = true)
    (hb : s.readable b = true) :
    execJump taken a b s = .next (s.commit (if taken (s.sourceValue a) then s.sourceValue b else s.seqPc 3)) := by
  rw [execJump, withSource_of_readable ha, withSource_of_readable hb]

/-- R100: jit commits b's value when a is not 0, else the sequential next pc. -/
theorem exec_jit_of_readable {a b : Operand} {s : State} (ha : s.readable a = true) (hb : s.readable b = true) :
    exec (.jit a b) s = .next (s.commit (if s.sourceValue a ≠ 0#64 then s.sourceValue b else s.seqPc 3)) := by
  simp only [exec_jit, execJump_of_readable ha hb, wordTrue, decide_eq_true_eq]

/-- R101: jif commits b's value when a is 0, else the sequential next pc. -/
theorem exec_jif_of_readable {a b : Operand} {s : State} (ha : s.readable a = true) (hb : s.readable b = true) :
    exec (.jif a b) s = .next (s.commit (if s.sourceValue a = 0#64 then s.sourceValue b else s.seqPc 3)) := by
  simp only [exec_jif, execJump_of_readable ha hb, wordFalse, decide_eq_true_eq]

/-- R71: the fetch at a negative pc raises AddressFault with pc. -/
theorem State.fetchInstr_of_pc_neg {s : State} (h : s.pc.toInt < 0) : s.fetchInstr = .error ⟨.addressFault, s.pc⟩ := by
  simp only [State.fetchInstr, State.memRead_of_neg h]

/-- R71, R79: a RUNNING core that commits a value below -1 goes there and faults at the fetch. -/
theorem step_commit_of_lt {s : State} {next : Word} (hr : s.runState = .running) (hlt : next.toInt < -1) :
    step (s.commit next) = .next (State.raise { s with pc := next } ⟨.addressFault, next⟩) := by
  have hne : next ≠ haltSentinel := fun h => by rw [eq_haltSentinel_iff] at h; omega
  have hneg : next.toInt < 0 := by omega
  rw [State.commit_of_ne s hne]
  exact step_of_fetch_error hr (State.fetchInstr_of_pc_neg (s := { s with pc := next }) hneg)

/-- Settles O26: the commit at -1 and elsewhere, what hlt and the taken jumps commit, and the fetch below -1. -/
theorem commitTreatsMinusOneAsHalt : Obligations.CommitTreatsMinusOneAsHalt := by
  refine ⟨State.commit_eq_ite, exec_hlt, fun s a b ha hb => ⟨fun htrue => ?_, fun hfalse => ?_⟩,
    fun s next => step_commit_of_lt⟩
  · rw [exec_jit_of_readable ha hb, if_pos htrue]
  · rw [exec_jif_of_readable ha hb, if_pos hfalse]

end Sys2Proof.Machine

/-!
PROOFS. The faults of decode (spec/30_encoding.md R61, spec/60_exceptions.md R122, R123): when a field of the opcode word
has no meaning, which check then fails, and the step that takes its fault. Fields are spoken of as those of the integer a
non-negative Word is.
-/

namespace Sys2Proof

/-! ### Fields without a meaning (R53, R55) -/

/-- R53. -/
theorem Mode.ofField_eq_none_iff (n : Nat) : Mode.ofField n = none ↔ 2 < n := by
  unfold Mode.ofField
  split
  case h_4 => exact iff_of_true rfl (by simp only [imp_false] at *; omega)
  all_goals simp

/-- R55. -/
theorem Opcode.ofField_eq_none_iff (n : Nat) : Opcode.ofField n = none ↔ ¬ ((1 ≤ n ∧ n ≤ 9) ∨ n = 99) := by
  unfold Opcode.ofField
  split
  case h_11 => exact iff_of_true rfl (by simp only [imp_false] at *; omega)
  all_goals simp

/-- R53: a mode field of at most 2 has a meaning. -/
theorem Mode.exists_ofField {n : Nat} (h : n ≤ 2) : ∃ m, Mode.ofField n = some m :=
  Option.ne_none_iff_exists'.mp fun hn => absurd ((Mode.ofField_eq_none_iff n).mp hn) (by omega)

/-! ### The three checks on the opcode word (R61) -/

/-- R52: the first check. -/
theorem decodeHead_of_neg {w : Word} (h : w.toInt < 0) : decodeHead w = .error (.unknownOpcode w) := if_pos h

/-- R53, R61: the second check, which looks at no opcode field. -/
theorem decodeHead_of_mode_illegal {w : Word} (h0 : 0 ≤ w.toInt)
    (h : 2 < w.toInt / 100 % 10 ∨ 2 < w.toInt / 1000 % 10 ∨ 2 < w.toInt / 10000) :
    decodeHead w = .error (.unknownMode w) := by
  rw [Word.toInt_of_nonneg h0] at h
  have hnone : Mode.ofField (fieldM1 w.toNat) = none ∨ Mode.ofField (fieldM2 w.toNat) = none ∨
      Mode.ofField (fieldM3 w.toNat) = none := by
    simp only [Mode.ofField_eq_none_iff, fieldM1, fieldM2, fieldM3]
    omega
  rw [decodeHead, if_neg (by omega)]
  split
  · rename_i h1 h2 h3
    simp [h1, h2, h3] at hnone
  · rfl

/-- R60, R61: the third check, reached when the modes are legal. -/
theorem decodeHead_of_opcode_illegal {w : Word} (h0 : 0 ≤ w.toInt) (h1 : w.toInt / 100 % 10 ≤ 2)
    (h2 : w.toInt / 1000 % 10 ≤ 2) (h3 : w.toInt / 10000 ≤ 2)
    (hop : ¬ ((1 ≤ w.toInt % 100 ∧ w.toInt % 100 ≤ 9) ∨ w.toInt % 100 = 99)) :
    decodeHead w = .error (.unknownOpcode w) := by
  rw [Word.toInt_of_nonneg h0] at h1 h2 h3 hop
  obtain ⟨m1, e1⟩ := Mode.exists_ofField (n := fieldM1 w.toNat) (by unfold fieldM1; omega)
  obtain ⟨m2, e2⟩ := Mode.exists_ofField (n := fieldM2 w.toNat) (by unfold fieldM2; omega)
  obtain ⟨m3, e3⟩ := Mode.exists_ofField (n := fieldM3 w.toNat) (by unfold fieldM3; omega)
  have eop : Opcode.ofField (fieldOpcode w.toNat) = none := by
    rw [Opcode.ofField_eq_none_iff, fieldOpcode]
    omega
  rw [decodeHead, if_neg (by omega)]
  simp only [e1, e2, e3, eop]

end Sys2Proof

namespace Sys2Proof.Machine

/-- R81, R122, R123: a RUNNING core whose word at pc fails a check takes the fault of that check. -/
theorem step_of_decodeHead_error {s : State} {e : HeadError} (hr : s.runState = .running) (hpc : 0 ≤ s.pc.toInt)
    (he : decodeHead (s.mem.read s.pc.toNat) = .error e) : step s = .next (s.raise (headTrap e)) :=
  step_of_fetch_error hr (by simp only [State.fetchInstr, State.memRead_of_nonneg hpc, he])

/-- Settles O40: the first and the third check on the opcode word, each with its fault. -/
theorem unknownOpcodeFaults : Obligations.UnknownOpcodeFaults := by
  rintro s _ hr hpc rfl (hneg | ⟨h0, h1, h2, h3, hop⟩)
  · exact step_of_decodeHead_error hr hpc (decodeHead_of_neg hneg)
  · exact step_of_decodeHead_error hr hpc (decodeHead_of_opcode_illegal h0 h1 h2 h3 hop)

/-- Settles O41: the second check on the opcode word, with its fault. -/
theorem unknownModeFaults : Obligations.UnknownModeFaults := by
  rintro s _ hr hpc rfl h0 hmode
  exact step_of_decodeHead_error hr hpc (decodeHead_of_mode_illegal h0 hmode)

end Sys2Proof.Machine

/-!
PROOFS. The faults of the execute stage at a destination and at the end of input (spec/60_exceptions.md R124, R126): what
the shared shape of add, mul, lt and eq does with readable sources, what in does with each answer that is not `wait`, and
the store to an immediate.
-/

namespace Sys2Proof.Machine

/-! ### add, mul, lt and eq (R90, R91, R105, R106) -/

/-- The four three-operand instructions differ in the result alone. -/
theorem exec_eq_execBinary_of_mem {a b c : Operand} {i : Instr}
    (hi : i ∈ [Instr.add a b c, Instr.mul a b c, Instr.lt a b c, Instr.eq a b c]) (s : State) :
    ∃ f, exec i s = execBinary f a b c s := by
  simp only [List.mem_cons, List.not_mem_nil, or_false] at hi
  obtain rfl | rfl | rfl | rfl := hi
  · exact ⟨aluAdd, rfl⟩
  · exact ⟨aluMul, rfl⟩
  · exact ⟨aluLt, rfl⟩
  · exact ⟨aluEq, rfl⟩

/-- R78: once both sources were read, only the store is left. -/
theorem execBinary_of_readable {f : Word → Word → Word} {a b c : Operand} {s : State} (ha : s.readable a = true)
    (hb : s.readable b = true) :
    execBinary f a b c s = storeAndAdvance s c (f (s.sourceValue a) (s.sourceValue b)) 4 := by
  rw [execBinary, withSource_of_readable ha, withSource_of_readable hb]

/-! ### in (R97) -/

/-- R97: in with a word stores it from the state in which the word has been consumed. -/
theorem exec_inp_of_value {s : State} {v : Word} (a : Operand) (h : s.inAnswer = .value v) :
    exec (.inp a) s = storeAndAdvance { s with inEnv := s.inEnv.next } a v 2 := by
  simp only [exec, execIn, State.inRecv_eq, h]

/-- R97, R126: in at the end of input faults before its destination is looked at. -/
theorem exec_inp_of_ended {s : State} (a : Operand) (h : s.inAnswer = .ended) :
    exec (.inp a) s = .next (State.raise { s with inEnv := s.inEnv.next } ⟨.inputExhausted, 0#64⟩) := by
  simp only [exec, execIn, State.inRecv_eq, h]

/-! ### The store to an immediate (R77) -/

theorem State.opWrite_of_opAddr_none {s : State} {o : Operand} (v : Word) (h : s.opAddr o = none) :
    s.opWrite o v = .error ⟨.writeToImmediate, o.raw⟩ := by
  simp only [State.opWrite, h]

theorem storeAndAdvance_of_opAddr_none {s : State} {o : Operand} (v : Word) (n : Nat) (h : s.opAddr o = none) :
    storeAndAdvance s o v n = .next (s.raise ⟨.writeToImmediate, o.raw⟩) := by
  simp only [storeAndAdvance, State.opWrite_of_opAddr_none v h]

/-- Settles O30: the store to an immediate, reached by the three-operand instructions after their sources and by in after
its word. -/
theorem immediateDestinationFaults : Obligations.ImmediateDestinationFaults := by
  intro s c hc
  have hnone (t : State) : t.opAddr c = none := State.opAddr_eq_none_iff.mpr hc
  refine ⟨fun v => State.opWrite_of_opAddr_none v (hnone s), fun a b ha hb i hi => ?_, fun v hv => ?_⟩
  · obtain ⟨f, hf⟩ := exec_eq_execBinary_of_mem hi s
    rw [hf, execBinary_of_readable ha hb, storeAndAdvance_of_opAddr_none _ _ (hnone s)]
  · rw [exec_inp_of_value c hv, storeAndAdvance_of_opAddr_none _ _ (hnone _)]

/-- Settles O32: `end` leaves the environment as it is (`InEnv.next_of_ended`), so the fault entry is all that happens. -/
theorem endOfInputFaults : Obligations.EndOfInputFaults := by
  intro s a h
  rw [exec_inp_of_ended a h, InEnv.next_of_ended h]

end Sys2Proof.Machine

/-!
PROOFS. Words and the ALU (spec/00_scope.md R2, spec/41_arithmetic.md R92) and the sequential next pc (spec/10_state.md R14,
spec/40_step_and_operands.md R80).
-/

namespace Sys2Proof

/-- R2: a wrapped integer differs from the integer by a multiple of 2^64. -/
theorem exists_wrap64_toInt (z : Int) : ∃ k : Int, (wrap64 z).toInt = z + k * 2 ^ 64 :=
  ⟨-z.bdiv (2 ^ 64), by have := Int.bmod_add_bdiv z (2 ^ 64); rw [wrap64_toInt]; push_cast at this ⊢; linarith⟩

/-- R2: multiples of 2^64 are wrapped away. -/
theorem wrap64_add_mul (z k : Int) : wrap64 (z + k * 2 ^ 64) = wrap64 z := by
  rw [← BitVec.toInt_inj, wrap64_toInt, wrap64_toInt]
  exact Int.add_mul_bmod_self_right z k (2 ^ 64)

/-- Settles O1: wrapping drops multiples of 2^64 and is the identity on the value of a Word. -/
theorem wrapIsTheUniqueCongruentWord : Obligations.WrapIsTheUniqueCongruentWord := by
  refine fun z w => ⟨?_, ?_⟩
  · rintro rfl
    exact exists_wrap64_toInt z
  · rintro ⟨k, hk⟩
    rw [← wrap64_of_toInt w, hk, wrap64_add_mul]

end Sys2Proof

namespace Sys2Proof.Machine

/-- Settles O2: the ALU's sum and product are those of the ring `BitVec 64`, whose laws Mathlib has. -/
theorem aluObeysTheRingLaws : Obligations.AluObeysTheRingLaws := by
  intro a b c
  refine ⟨exists_wrap64_toInt _, exists_wrap64_toInt _, ?_⟩
  have hminus : wrap64 (-1) = -1#64 := by decide
  simp only [aluAdd_eq, aluMul_eq, hminus]
  exact ⟨BitVec.add_comm a b, BitVec.mul_comm a b, BitVec.add_assoc a b c, BitVec.mul_assoc a b c, BitVec.mul_add,
    BitVec.add_zero a, BitVec.mul_one a, by rw [BitVec.mul_neg, BitVec.mul_one, BitVec.add_right_neg]⟩

/-- Settles O3: below the top the sum is in the range of a Word; past it the wrap lands within 3 of -2^63. -/
theorem sequentialPcNeverWrapsToAnAddress : Obligations.SequentialPcNeverWrapsToAnAddress := by
  intro s n h0 _ hn
  have hlt := Word.toInt_lt s.pc
  unfold Config.amax State.seqPc
  refine ⟨fun h => wrap64_toInt_of_range (by omega) (by push_cast at h; omega), fun h => ?_⟩
  rw [wrap64_toInt, Int.bmod_def]
  push_cast at h
  omega

end Sys2Proof.Machine

/-!
PROOFS. The opcode word and its head (spec/30_encoding.md R51 to R63): the fields of the word that says a head, so that
`decodeHead` and `Head.toWord` are inverse to one another, and what `decode` makes of such a word and those after it.
-/

namespace Sys2Proof

/-! ### Fields and what they stand for (R53, R55) -/

@[simp] theorem Mode.ofField_toField (m : Mode) : Mode.ofField m.toField = some m := by cases m <;> rfl

@[simp] theorem Opcode.ofField_toField (op : Opcode) : Opcode.ofField op.toField = some op := by cases op <;> rfl

theorem Mode.toField_of_ofField {n : Nat} {m : Mode} (h : Mode.ofField n = some m) : m.toField = n := by
  unfold Mode.ofField at h
  split at h <;> cases h <;> rfl

theorem Opcode.toField_of_ofField {n : Nat} {op : Opcode} (h : Opcode.ofField n = some op) : op.toField = n := by
  unfold Opcode.ofField at h
  split at h <;> cases h <;> rfl

theorem Opcode.toField_le (op : Opcode) : 1 ≤ op.toField ∧ op.toField ≤ 99 := by cases op <;> decide

/-- R55: an opcode field of the map has an opcode. -/
theorem Opcode.exists_ofField {n : Nat} (h : (1 ≤ n ∧ n ≤ 9) ∨ n = 99) : ∃ op, Opcode.ofField n = some op :=
  Option.ne_none_iff_exists'.mp fun hn => (Opcode.ofField_eq_none_iff n).mp hn h

/-! ### The opcode word of a head (R51) -/

/-- R51: the natural number an opcode word is. -/
theorem Head.toWord_toNat (h : Head) :
    h.toWord.toNat = h.op.toField + 100 * h.m1.toField + 1000 * h.m2.toField + 10000 * h.m3.toField := by
  have hop := h.op.toField_le
  have h1 := h.m1.toField_le
  have h2 := h.m2.toField_le
  have h3 := h.m3.toField_le
  rw [Head.toWord, opcodeWord, BitVec.toNat_ofNat, Nat.mod_eq_of_lt (by omega)]

theorem Head.toWord_toInt (h : Head) :
    h.toWord.toInt = h.op.toField + 100 * h.m1.toField + 1000 * h.m2.toField + 10000 * h.m3.toField := by
  have hop := h.op.toField_le
  have h1 := h.m1.toField_le
  have h2 := h.m2.toField_le
  have h3 := h.m3.toField_le
  have hnat := h.toWord_toNat
  rw [BitVec.toInt_eq_toNat_of_lt (by omega)]
  exact_mod_cast hnat

/-- R51: a Word decodes to a head when it is not negative and its four fields are those of the head. -/
theorem decodeHead_of_fields {w : Word} {h : Head} (h0 : 0 ≤ w.toInt) (hop : Opcode.ofField (w.toNat % 100) = some h.op)
    (h1 : Mode.ofField (w.toNat / 100 % 10) = some h.m1) (h2 : Mode.ofField (w.toNat / 1000 % 10) = some h.m2)
    (h3 : Mode.ofField (w.toNat / 10000) = some h.m3) : decodeHead w = .ok h := by
  rw [decodeHead, if_neg (by omega)]
  simp only [fieldM1, fieldM2, fieldM3, fieldOpcode, hop, h1, h2, h3]

/-- R61: a Word that passes the three checks is not negative and has the fields of the head it gives. -/
theorem decodeHead_ok {w : Word} {h : Head} (hw : decodeHead w = .ok h) :
    0 ≤ w.toInt ∧ h.op.toField = w.toNat % 100 ∧ h.m1.toField = w.toNat / 100 % 10 ∧
      h.m2.toField = w.toNat / 1000 % 10 ∧ h.m3.toField = w.toNat / 10000 := by
  unfold decodeHead at hw
  split at hw
  · cases hw
  · split at hw
    · rename_i h1 h2 h3
      split at hw
      · rename_i hop
        cases hw
        exact ⟨by omega, Opcode.toField_of_ofField hop, Mode.toField_of_ofField h1, Mode.toField_of_ofField h2,
          Mode.toField_of_ofField h3⟩
      · cases hw
    · cases hw

/-- R51: the opcode word of a head decodes to it. -/
theorem decodeHead_toWord (h : Head) : decodeHead h.toWord = .ok h := by
  have hop := h.op.toField_le
  have h1 := h.m1.toField_le
  have h2 := h.m2.toField_le
  have h3 := h.m3.toField_le
  have hnat := h.toWord_toNat
  have eop : h.toWord.toNat % 100 = h.op.toField := by omega
  have e1 : h.toWord.toNat / 100 % 10 = h.m1.toField := by omega
  have e2 : h.toWord.toNat / 1000 % 10 = h.m2.toField := by omega
  have e3 : h.toWord.toNat / 10000 = h.m3.toField := by omega
  have h0 := h.toWord_toInt
  exact decodeHead_of_fields (by omega) (by rw [eop, Opcode.ofField_toField]) (by rw [e1, Mode.ofField_toField])
    (by rw [e2, Mode.ofField_toField]) (by rw [e3, Mode.ofField_toField])

/-- Settles O6: a Word that decodes is, digit by digit, the opcode word of its head. -/
theorem opcodeWordsAndHeadsCorrespond : Obligations.OpcodeWordsAndHeadsCorrespond := by
  refine fun w h => ⟨fun hw => ?_, ?_⟩
  · obtain ⟨_, hop, h1, h2, h3⟩ := decodeHead_ok hw
    have hnat := h.toWord_toNat
    exact BitVec.eq_of_toNat_eq (by omega)
  · rintro rfl
    exact decodeHead_toWord h

/-! ### The list of all opcode words (R63) -/

/-- R55. -/
def Opcode.all : List Opcode := [.add, .mul, .inp, .out, .jit, .jif, .lt, .eq, .srb, .hlt]

/-- R53. -/
def Mode.all : List Mode := [.position, .immediate, .relative]

theorem Opcode.mem_all (op : Opcode) : op ∈ Opcode.all := by cases op <;> decide

theorem Mode.mem_all (m : Mode) : m ∈ Mode.all := by cases m <;> decide

/-- R63: every opcode with every three modes. -/
def Head.all : List Head :=
  (Opcode.all ×ˢ Mode.all ×ˢ Mode.all ×ˢ Mode.all).map fun x => ⟨x.1, x.2.1, x.2.2.1, x.2.2.2⟩

theorem Head.mem_all (h : Head) : h ∈ Head.all := by
  obtain ⟨op, m1, m2, m3⟩ := h
  exact List.mem_map.mpr ⟨(op, m1, m2, m3), by simp [Opcode.mem_all, Mode.mem_all], rfl⟩

theorem Head.all_nodup : Head.all.Nodup := by
  have hop : Opcode.all.Nodup := by decide
  have hm : Mode.all.Nodup := by decide
  refine (hop.product (hm.product (hm.product hm))).map ?_
  rintro ⟨_, _, _, _⟩ ⟨_, _, _, _⟩ h
  cases h
  rfl

theorem Head.all_length : Head.all.length = 270 := by
  simp only [Head.all, List.length_map, List.length_product]
  rfl

theorem Head.toWord_injective : Function.Injective Head.toWord := fun h h' e => by
  have := (decodeHead_toWord h).symm.trans ((congrArg decodeHead e).trans (decodeHead_toWord h'))
  cases this
  rfl

/-- Settles O7: the opcode words of all heads, different since each decodes to its own head. -/
theorem exactlyTwoHundredSeventyOpcodeWords : Obligations.ExactlyTwoHundredSeventyOpcodeWords := by
  refine ⟨Head.all.map Head.toWord, Head.all_nodup.map Head.toWord_injective, by rw [List.length_map, Head.all_length],
    fun w => ?_, ?_, ?_, fun w hw => ?_⟩
  · simp only [List.mem_map, Head.mem_all, true_and, opcodeWordsAndHeadsCorrespond w, eq_comm]
  · exact List.mem_map.mpr ⟨⟨.add, .position, .position, .position⟩, Head.mem_all _, rfl⟩
  · exact List.mem_map.mpr ⟨⟨.hlt, .relative, .relative, .relative⟩, Head.mem_all _, rfl⟩
  · obtain ⟨h, _, rfl⟩ := List.mem_map.mp hw
    have hop := h.op.toField_le
    have h1 := h.m1.toField_le
    have h2 := h.m2.toField_le
    have h3 := h.m3.toField_le
    rw [Head.toWord_toInt]
    omega

/-- R61: a Word that passes all three checks, with its fields as those of the integer it is. -/
theorem decodeHead_of_legal {w : Word} (h0 : 0 ≤ w.toInt) (h1 : w.toInt / 100 % 10 ≤ 2) (h2 : w.toInt / 1000 % 10 ≤ 2)
    (h3 : w.toInt / 10000 ≤ 2) (hop : (1 ≤ w.toInt % 100 ∧ w.toInt % 100 ≤ 9) ∨ w.toInt % 100 = 99) :
    ∃ h, decodeHead w = .ok h ∧ (h.op.toField : Int) = w.toInt % 100 ∧ (h.m1.toField : Int) = w.toInt / 100 % 10 ∧
      (h.m2.toField : Int) = w.toInt / 1000 % 10 ∧ (h.m3.toField : Int) = w.toInt / 10000 := by
  have hw := Word.toInt_of_nonneg h0
  obtain ⟨m1, e1⟩ := Mode.exists_ofField (n := w.toNat / 100 % 10) (by omega)
  obtain ⟨m2, e2⟩ := Mode.exists_ofField (n := w.toNat / 1000 % 10) (by omega)
  obtain ⟨m3, e3⟩ := Mode.exists_ofField (n := w.toNat / 10000) (by omega)
  obtain ⟨op, eop⟩ := Opcode.exists_ofField (n := w.toNat % 100) (by omega)
  refine ⟨⟨op, m1, m2, m3⟩, decodeHead_of_fields h0 eop e1 e2 e3, ?_⟩
  simp only [Opcode.toField_of_ofField eop, Mode.toField_of_ofField e1, Mode.toField_of_ofField e2,
    Mode.toField_of_ofField e3]
  omega

/-- Settles O8: the three checks in their order, and the Word that passes them all. -/
theorem everyWordHasItsDecodeOutcome : Obligations.EveryWordHasItsDecodeOutcome := fun _ =>
  ⟨decodeHead_of_neg, decodeHead_of_mode_illegal, decodeHead_of_opcode_illegal, decodeHead_of_legal⟩

/-! ### An opcode word with the words after it (R50, R57) -/

/-- R50: what `decode` makes of a legal opcode word. -/
theorem decode_of_decodeHead {w : Word} {h : Head} (hw : decodeHead w = .ok h) {ws : List Word}
    (hlen : h.op.arity ≤ ws.length) : decode (w :: ws) = .ok (h.assemble ws, ws.drop h.op.arity) := by
  simp only [decode, hw, if_neg (Nat.not_lt.mpr hlen)]

/-- R50: a list of Words that decodes begins with a legal opcode word and has its operand words. -/
theorem decode_ok {ws rest : List Word} {i : Instr} (h : decode ws = .ok (i, rest)) :
    ∃ w vs hd, ws = w :: vs ∧ decodeHead w = .ok hd ∧ hd.op.arity ≤ vs.length ∧ i = hd.assemble vs ∧
      rest = vs.drop hd.op.arity := by
  cases ws with
  | nil => cases h
  | cons w vs =>
    simp only [decode] at h
    split at h
    · cases h
    · rename_i hd hhd
      split at h
      · cases h
      · rename_i hlen
        cases h
        exact ⟨w, vs, hd, rfl, hhd, Nat.not_lt.mp hlen, rfl, rfl⟩

/-- R57: an instruction keeps every operand word it is made with. -/
theorem Head.assemble_operands {h : Head} {ws : List Word} (hlen : h.op.arity ≤ ws.length) :
    (h.assemble ws).split.operands = ws.take h.op.arity := by
  obtain ⟨op, m1, m2, m3⟩ := h
  rcases ws with _ | ⟨x, _ | ⟨y, _ | ⟨z, ws⟩⟩⟩ <;> cases op <;> simp_all [Opcode.arity, Head.assemble, Instr.split]

/-- R50: only the operand words count. -/
theorem Head.assemble_take (h : Head) (ws : List Word) : h.assemble (ws.take h.op.arity) = h.assemble ws := by
  obtain ⟨op, m1, m2, m3⟩ := h
  cases op <;> simp [Head.assemble, Opcode.arity, List.getD_eq_getElem?_getD]

/-- R58: the destination is the first or the third operand. -/
theorem Head.assemble_dest {h : Head} {ws : List Word} {c : Operand} (hc : (h.assemble ws).dest = some c) :
    (0 < h.op.arity ∧ c.raw = ws.getD 0 0) ∨ (2 < h.op.arity ∧ c.raw = ws.getD 2 0) := by
  obtain ⟨op, m1, m2, m3⟩ := h
  cases op <;> cases hc
  case inp.refl => exact .inl ⟨Nat.one_pos, rfl⟩
  all_goals exact .inr ⟨Nat.lt_succ_self 2, rfl⟩

/-- Settles O10: the words taken and the words left make up the words that followed. -/
theorem decodingKeepsEveryOperandWord : Obligations.DecodingKeepsEveryOperandWord := by
  intro w ws rest i h
  obtain ⟨_, _, hd, e, _, hlen, rfl, rfl⟩ := decode_ok h
  cases e
  rw [encode, List.tail_cons, Head.assemble_operands hlen, List.take_append_drop]

/-- R54: two heads with one opcode that make the same instructions decode alike. -/
theorem decode_toWord_congr {h h' : Head} {ws : List Word} (hws : h.assemble ws = h'.assemble ws) (hop : h.op = h'.op) :
    decode (h.toWord :: ws) = decode (h'.toWord :: ws) := by
  simp only [decode, decodeHead_toWord, hop, hws]

/-- R54: without an operand c, its mode has no place in the instruction. -/
theorem Head.assemble_of_arity_le_two {op : Opcode} (h : op.arity ≤ 2) (m1 m2 m3 : Mode) (ws : List Word) :
    Head.assemble ⟨op, m1, m2, m3⟩ ws = Head.assemble ⟨op, m1, m2, .position⟩ ws := by
  cases op <;> simp_all [Opcode.arity, Head.assemble]

/-- R54: nor that of b. -/
theorem Head.assemble_of_arity_le_one {op : Opcode} (h : op.arity ≤ 1) (m1 m2 m3 : Mode) (ws : List Word) :
    Head.assemble ⟨op, m1, m2, m3⟩ ws = Head.assemble ⟨op, m1, .position, .position⟩ ws := by
  cases op <;> simp_all [Opcode.arity, Head.assemble]

/-- R54: nor that of a. -/
theorem Head.assemble_of_arity_eq_zero {op : Opcode} (h : op.arity = 0) (m1 m2 m3 : Mode) (ws : List Word) :
    Head.assemble ⟨op, m1, m2, m3⟩ ws = Head.assemble ⟨op, .position, .position, .position⟩ ws := by
  cases op <;> simp_all [Opcode.arity, Head.assemble]

/-- Settles O9: a mode that the instruction has no operand for is gone when the instruction is made. -/
theorem unusedModeFieldsHaveNoEffect : Obligations.UnusedModeFieldsHaveNoEffect := fun _ m1 m2 m3 ws =>
  ⟨fun h => decode_toWord_congr (Head.assemble_of_arity_le_two h m1 m2 m3 ws) rfl,
    fun h => decode_toWord_congr (Head.assemble_of_arity_le_one h m1 m2 m3 ws) rfl,
    fun h => decode_toWord_congr (Head.assemble_of_arity_eq_zero h m1 m2 m3 ws) rfl⟩

/-! ### The encoder (R50, R63) -/

/-- R63: the head that the canonical opcode word of an instruction says. -/
def Instr.head : Instr → Head
  | .add a b c => ⟨.add, a.mode, b.mode, c.mode⟩
  | .mul a b c => ⟨.mul, a.mode, b.mode, c.mode⟩
  | .inp a => ⟨.inp, a.mode, .position, .position⟩
  | .out a => ⟨.out, a.mode, .position, .position⟩
  | .jit a b => ⟨.jit, a.mode, b.mode, .position⟩
  | .jif a b => ⟨.jif, a.mode, b.mode, .position⟩
  | .lt a b c => ⟨.lt, a.mode, b.mode, c.mode⟩
  | .eq a b c => ⟨.eq, a.mode, b.mode, c.mode⟩
  | .srb a => ⟨.srb, a.mode, .position, .position⟩
  | .hlt => ⟨.hlt, .position, .position, .position⟩

theorem encode_eq (i : Instr) : encode i = i.head.toWord :: i.split.operands := by cases i <;> rfl

theorem Instr.split_operands_length (i : Instr) : i.split.operands.length = i.head.op.arity := by cases i <;> rfl

/-- R57, R58: an instruction is its head put together with its own operand words, whatever words follow them. -/
theorem Instr.head_assemble (i : Instr) (rest : List Word) : i.head.assemble (i.split.operands ++ rest) = i := by
  cases i <;> rfl

/-- Settles O5: the opcode word decodes to the instruction's head, and the head takes the instruction's operand words. -/
theorem decodeOfEncodeIsTheInstruction : Obligations.DecodeOfEncodeIsTheInstruction := by
  intro i rest
  have hlen := i.split_operands_length
  rw [encode_eq, List.cons_append,
    decode_of_decodeHead (decodeHead_toWord i.head) (by rw [List.length_append]; omega), i.head_assemble, ← hlen,
    List.drop_left]

/-- Settles O4: each list of Words is run through the decoder. -/
theorem sampleWordsDecode : Obligations.SampleWordsDecode :=
  ⟨rfl, rfl, rfl, rfl, rfl, rfl, rfl, rfl, rfl, rfl, rfl, rfl, rfl, rfl, rfl, rfl⟩

end Sys2Proof

/-!
PROOFS. The host's side of a run (spec/70_reset_and_hazards.md R140, R141) and fetch (spec/40_step_and_operands.md R71 to
R73): where an image stands, which state decides what is fetched, and the instruction that words in memory make.
-/

namespace Sys2Proof.Machine

/-! ### Image and reset (R140, R141) -/

theorem Memory.ofImageFrom_cons (a : Nat) (v : Word) (vs : List Word) :
    Memory.ofImageFrom a (v :: vs) =
      if v ≠ 0#64 ∧ a ≤ Config.amax then (a, v) :: Memory.ofImageFrom (a + 1) vs else Memory.ofImageFrom (a + 1) vs :=
  rfl

theorem Memory.read_ofImageFrom_cons (a n : Nat) (v : Word) (vs : List Word) :
    (Memory.ofImageFrom a (v :: vs)).read n =
      if a = n ∧ v ≠ 0#64 ∧ a ≤ Config.amax then v else (Memory.ofImageFrom (a + 1) vs).read n := by
  rw [Memory.ofImageFrom_cons]
  split
  · simp_all [Memory.read]
  · rename_i hskip
    exact (if_neg fun h => hskip h.2).symm

/-- R141: an image placed from `a` on stands at `a` and after it, as far as there are addresses. -/
theorem Memory.read_ofImageFrom (vs : List Word) (a n : Nat) :
    (Memory.ofImageFrom a vs).read n = if a ≤ n ∧ n ≤ Config.amax then vs.getD (n - a) 0#64 else 0#64 := by
  induction vs generalizing a with
  | nil => simp [Memory.ofImageFrom, Memory.read]
  | cons v vs ih =>
    rw [Memory.read_ofImageFrom_cons, ih]
    obtain hlt | rfl | hgt := Nat.lt_trichotomy a n
    · have hsub : n - a = (n - (a + 1)) + 1 := by omega
      simp [hsub, hlt.ne, hlt.le, Nat.succ_le_of_lt hlt]
    · by_cases hv : v = 0#64 <;> simp [hv]
    · rw [if_neg (by omega), if_neg (by omega), if_neg (by omega)]

/-- Settles O12: the image is read from address 0 on; of the old state boot keeps no field. -/
theorem imageIsPlacedFromAddressZero : Obligations.ImageIsPlacedFromAddressZero := by
  refine fun s image p input output => ⟨fun a => ?_, rfl, rfl, fun _ => rfl⟩
  have hread := Memory.read_ofImageFrom image 0 a
  simp only [Nat.zero_le, true_and, Nat.sub_zero] at hread
  exact hread

/-- Settles O55: the empty memory is canonical, and the reset state RUNNING without a fault. -/
theorem resetMeetsTheInvariant : Obligations.ResetMeetsTheInvariant := ⟨State.reset_mem_wf, rfl, rfl⟩

/-- Settles O56: each item of the reset state is a literal. -/
theorem resetValues : Obligations.ResetValues := ⟨rfl, rfl, rfl, rfl, rfl, fun _ => rfl⟩

/-- Settles O57: reset writes exactly the status half of the invariant and keeps the memory half. -/
theorem resetStartsARunFromAnyState : Obligations.ResetStartsARunFromAnyState :=
  fun _ _ => ⟨rfl, fun hwf => ⟨hwf, rfl, rfl⟩⟩

/-- Settles O27: fault entry is the update itself, and each fault has its code. -/
theorem faultEntrySetsOnlyTheStatus : Obligations.FaultEntrySetsOnlyTheStatus :=
  fun _ _ _ => ⟨rfl, rfl, rfl, rfl, rfl, rfl, rfl⟩

/-! ### What fetch depends on (R22, R45) -/

theorem State.memRead_congr {s t : State} (hmem : s.mem = t.mem) (a : Word) : s.memRead a = t.memRead a := by
  simp only [State.memRead, hmem]

theorem State.fetchWords_congr {s t : State} (hpc : s.pc = t.pc) (hmem : s.mem = t.mem) (k n : Nat) :
    s.fetchWords k n = t.fetchWords k n := by
  induction n generalizing k with
  | zero => rfl
  | succ n ih => simp only [State.fetchWords, State.wordAddr, hpc, State.memRead_congr hmem, ih]

/-- Settles O13: each read of fetch is at an address made from pc. -/
theorem fetchSeesOnlyPcAndMemory : Obligations.FetchSeesOnlyPcAndMemory := by
  intro s t hpc hmem
  simp only [State.fetchInstr, hpc, State.memRead_congr hmem, State.fetchWords_congr hpc hmem]

/-! ### The instruction that the words at pc make (R71 to R74) -/

/-- R72, R73: a legal opcode word at pc with all its operand words below the top of memory is fetched. -/
theorem State.fetchInstr_of_decodeHead {s : State} {h : Head} (hpc : 0 ≤ s.pc.toInt)
    (hh : decodeHead (s.mem.read s.pc.toNat) = .ok h) (htop : s.pc.toInt + h.op.arity ≤ Config.amax) :
    s.fetchInstr = .ok (h.assemble ((List.range h.op.arity).map fun j => s.mem.read (s.pc.toNat + 1 + j))) := by
  have hwords := State.fetchWords_of_range hpc h.op.arity 1 (by push_cast; omega)
  simp only [State.fetchInstr, State.memRead_of_nonneg hpc, hh, hwords]

/-- R71 to R73: what `decode` reads from the words that stand at pc is what fetch reads from memory. -/
theorem State.fetchInstr_of_decode {s : State} {ws rest : List Word} {i : Instr} (hpc : 0 ≤ s.pc.toInt)
    (htop : s.pc.toInt + ws.length ≤ Config.amax + 1)
    (hmem : ∀ k < ws.length, s.mem.read (s.pc.toNat + k) = ws.getD k 0) (hdec : decode ws = .ok (i, rest)) :
    s.fetchInstr = .ok i := by
  obtain ⟨w, vs, h, rfl, hh, hlen, rfl, rfl⟩ := decode_ok hdec
  simp only [List.length_cons] at htop hmem
  have hword : s.mem.read s.pc.toNat = w := hmem 0 (by omega)
  have hops : (List.range h.op.arity).map (fun j => s.mem.read (s.pc.toNat + 1 + j)) = vs.take h.op.arity := by
    refine List.ext_getElem (by simp [hlen]) fun j hj _ => ?_
    simp only [List.length_map, List.length_range] at hj
    have hcell := hmem (j + 1) (by omega)
    rw [← Nat.add_assoc, Nat.add_right_comm] at hcell
    simp [hcell, List.getElem?_eq_getElem (show j < vs.length by omega)]
  rw [State.fetchInstr_of_decodeHead hpc (by rw [hword, hh]) (by push_cast at htop; omega), hops, h.assemble_take]

/-- Settles O36: the words at pc are fetched as `decode` reads them. -/
theorem stepRunsTheDecodedInstruction : Obligations.StepRunsTheDecodedInstruction := by
  intro s i hr hpc htop hdec _
  refine step_of_fetch_ok hr (State.fetchInstr_of_decode hpc (by simpa using htop) (fun k hk => ?_) hdec)
  have hk : k < i.size := by simpa using hk
  simp [hk]

/-- R73, R141: words placed at pc, as far as there are addresses, are what fetch reads. -/
theorem step_placeWords {s : State} {ws rest : List Word} {i : Instr} (hr : s.runState = .running)
    (hpc : 0 ≤ s.pc.toInt) (htop : s.pc.toInt + ws.length ≤ Config.amax + 1) (hdec : decode ws = .ok (i, rest)) :
    step (s.placeWords s.pc ws) = exec i (s.placeWords s.pc ws) := by
  refine step_of_fetch_ok (by simpa using hr) (State.fetchInstr_of_decode (by simpa using hpc) (by simpa using htop)
    (fun k hk => ?_) hdec)
  rw [State.placeWords_pc, State.placeWords_read ws s s.pc hpc htop, if_pos (by omega), Nat.add_sub_cancel_left]

/-- Settles O37: the placed encoding decodes to the instruction (O5). -/
theorem encodedInstructionRunsWherePlaced : Obligations.EncodedInstructionRunsWherePlaced := by
  intro s i hr hpc htop
  have hdec := decodeOfEncodeIsTheInstruction i []
  rw [List.append_nil] at hdec
  exact step_placeWords hr hpc htop hdec

/-- Log entry 15: the four words of a table row decode to the instruction it is read as. -/
theorem decode_tableWords {nbits w : Nat} {i : Instr} (h : decodeTableWord nbits w = some i) :
    ∃ rest, decode (tableWords nbits w) = .ok (i, rest) := by
  unfold decodeTableWord at h
  split at h
  · cases h
    exact ⟨_, ‹_›⟩
  · cases h

/-- Settles O38: the four placed words decode to the row's instruction. -/
theorem tableWordRunsWherePlaced : Obligations.TableWordRunsWherePlaced := by
  intro s nbits w i hr hpc htop hrow
  obtain ⟨rest, hdec⟩ := decode_tableWords hrow
  exact step_placeWords hr hpc htop hdec

/-! ### The faults of fetch (R71, R73) -/

/-- Settles O39: the read at a negative pc, and 0 as an opcode word. -/
theorem fetchFaults : Obligations.FetchFaults := by
  refine fun s hr => ⟨fun hneg => step_of_fetch_error hr (State.fetchInstr_of_pc_neg hneg), fun hpc hzero => ?_⟩
  have hdec : decodeHead 0#64 = .error (.unknownOpcode 0#64) := rfl
  exact step_of_decodeHead_error hr hpc (by rw [hzero, hdec])

/-- R73, R14: the address after AMAX wraps to -2^63. -/
theorem State.wordAddr_past_top {s : State} {k : Nat} (h : s.pc.toInt + k = Config.amax + 1) :
    s.wordAddr k = wrap64 (-2 ^ 63) := by
  rw [State.wordAddr, h]
  decide

/-- R73, R34: of operand words that run past AMAX the first one past it faults. -/
theorem State.fetchWords_past_top {s : State} (hpc : 0 ≤ s.pc.toInt) (n k : Nat)
    (hstart : s.pc.toInt + k ≤ Config.amax + 1) (hend : (Config.amax : Int) + 1 < s.pc.toInt + k + n) :
    s.fetchWords k n = .error ⟨.addressFault, wrap64 (-2 ^ 63)⟩ := by
  induction n generalizing k with
  | zero => push_cast at hend; omega
  | succ n ih =>
    push_cast at hend
    by_cases hin : s.pc.toInt + k ≤ Config.amax
    · obtain ⟨haddr, _⟩ := State.wordAddr_of_range hpc hin
      have hrest := ih (k + 1) (by push_cast; omega) (by push_cast; omega)
      simp only [State.fetchWords, State.memRead_of_nonneg haddr, hrest]
    · have hneg : (wrap64 (-2 ^ 63)).toInt < 0 := by decide
      simp only [State.fetchWords, State.wordAddr_past_top (s := s) (k := k) (by omega), State.memRead_of_neg hneg]

/-- Settles O42: the opcode word is at or below AMAX, and its operand words run past it. -/
theorem operandFetchPastTheTopFaults : Obligations.OperandFetchPastTheTopFaults := by
  intro s h hr hpc hh htop
  have hle := Word.toNat_le_amax hpc
  have hint := Word.toInt_of_nonneg hpc
  have hwords := State.fetchWords_past_top hpc h.op.arity 1 (by push_cast; omega) (by push_cast; omega)
  exact step_of_fetch_error hr (by simp only [State.fetchInstr, State.memRead_of_nonneg hpc, hh, hwords])

end Sys2Proof.Machine

/-!
PROOFS. The execute stage of each instruction (spec/41_arithmetic.md to spec/46_halt.md): where it completes, and the faults
and waits of sources, destinations and ports.
-/

namespace Sys2Proof.Machine

/-! ### Where the shared shapes complete or fault (R77, R78, R80) -/

/-- R77, R80: a store to a cell, from a pc that a completed fetch gives, advances by the size. -/
theorem storeAndAdvance_completes {s : State} {o : Operand} {d n : Nat} (v : Word) (hpc : 0 ≤ s.pc.toInt) (hn : n ≤ 4)
    (hd : s.destCell o = some d) :
    storeAndAdvance s o v n = .next { s with mem := s.mem.write d v, pc := s.seqPc n } := by
  rw [storeAndAdvance_of_destCell hd]
  exact congrArg _ (State.commit_seqPc (s := { s with mem := s.mem.write d v }) hpc hn)

theorem storeAndAdvance_of_neg {s : State} {o : Operand} {ea : Word} (v : Word) (n : Nat) (h : s.opAddr o = some ea)
    (hn : ea.toInt < 0) : storeAndAdvance s o v n = .next (s.raise ⟨.addressFault, ea⟩) := by
  simp only [storeAndAdvance, State.opWrite, h, State.memWrite_of_neg v hn]

/-- R90, R91, R105, R106: what the three-operand instructions share when they complete. -/
theorem execBinary_completes {f : Word → Word → Word} {a b c : Operand} {s : State} {d : Nat} (hpc : 0 ≤ s.pc.toInt)
    (ha : s.readable a = true) (hb : s.readable b = true) (hd : s.destCell c = some d) :
    execBinary f a b c s = .next { s with
      mem := s.mem.write d (f (s.sourceValue a) (s.sourceValue b))
      pc := s.seqPc 4 } := by
  rw [execBinary_of_readable ha hb, storeAndAdvance_completes _ hpc le_rfl hd]

/-! ### The meaning of each constructor, by the shape it has (R74) -/

theorem exec_add (a b c : Operand) (s : State) : exec (.add a b c) s = execBinary aluAdd a b c s := rfl

theorem exec_mul (a b c : Operand) (s : State) : exec (.mul a b c) s = execBinary aluMul a b c s := rfl

theorem exec_lt (a b c : Operand) (s : State) : exec (.lt a b c) s = execBinary aluLt a b c s := rfl

theorem exec_eq (a b c : Operand) (s : State) : exec (.eq a b c) s = execBinary aluEq a b c s := rfl

/-- R98: out reads its operand, then sends. -/
theorem exec_out_of_readable {a : Operand} {s : State} (ha : s.readable a = true) :
    exec (.out a) s = .next (if s.outAnswer = .accept then
        State.commit { s with outEnv := s.outEnv.next, sent := s.sent ++ [s.sourceValue a] } (s.seqPc 2)
      else { s with outEnv := s.outEnv.next }) := by
  simp only [exec, execOut, withSource_of_readable ha, State.outSend_eq]
  cases s.outAnswer <;> rfl

/-- R110. -/
theorem exec_srb_of_readable {a : Operand} {s : State} (ha : s.readable a = true) :
    exec (.srb a) s = .next (State.commit { s with rb := aluAdd s.rb (s.sourceValue a) } (s.seqPc 2)) := by
  simp only [exec, execSrb, withSource_of_readable ha]

/-- R82, R97: a receive that is told to wait. -/
theorem exec_inp_of_wait {s : State} (a : Operand) (h : s.inAnswer = .wait) :
    exec (.inp a) s = .next { s with inEnv := s.inEnv.next } := by
  simp only [exec, execIn, State.inRecv_eq, h]

/-- Settles O15: the effective address of each mode, or none. -/
theorem operandWriteByMode : Obligations.OperandWriteByMode := fun _ _ _ => ⟨rfl, rfl, rfl⟩

/-! ### Completion -/

/-- Settles O16: the shared shape of the three-operand instructions, with the sum as its result. -/
theorem addStoresTheWrappedSum : Obligations.AddStoresTheWrappedSum := by
  intro s a b c d hpc ha hb hd
  rw [exec_add, execBinary_completes hpc ha hb hd]
  rfl

/-- Settles O17: the shared shape, with the product as its result. -/
theorem mulStoresTheWrappedProduct : Obligations.MulStoresTheWrappedProduct := by
  intro s a b c d hpc ha hb hd
  rw [exec_mul, execBinary_completes hpc ha hb hd]
  rfl

/-- Settles O18: the shared shape, with the signed comparison as its result. -/
theorem ltStoresTheSignedComparison : Obligations.LtStoresTheSignedComparison := by
  intro s a b c d hpc ha hb hd
  rw [exec_lt, execBinary_completes hpc ha hb hd]
  rfl

/-- Settles O19: the shared shape, with the equality as its result. -/
theorem eqStoresTheEquality : Obligations.EqStoresTheEquality := by
  intro s a b c d hpc ha hb hd
  rw [exec_eq, execBinary_completes hpc ha hb hd]
  rfl

/-- Settles O20: the store starts from the state in which the word has been taken. -/
theorem inStoresTheNextInputWord : Obligations.InStoresTheNextInputWord := by
  intro s a d v hpc hv hd
  rw [exec_inp_of_value a hv]
  exact storeAndAdvance_completes (s := { s with inEnv := s.inEnv.next }) v hpc (by decide) hd

/-- Settles O21: the sequential next pc is not the sentinel. -/
theorem outSendsItsOperand : Obligations.OutSendsItsOperand := by
  intro s a hpc ha ho
  rw [exec_out_of_readable ha, if_pos ho]
  exact congrArg _ (State.commit_seqPc (n := 2) hpc (by decide))

/-- R79, R80, R102: the commit of a jump, its target as the integer it is and its untaken next pc exact. -/
theorem State.commit_jump {s : State} (hpc : 0 ≤ s.pc.toInt) (taken : Prop) [Decidable taken] (target : Word) :
    s.commit (if taken then target else s.seqPc 3) =
      if taken then (if target.toInt = -1 then { s with runState := .halted } else { s with pc := target })
      else { s with pc := wrap64 (s.pc.toInt + 3) } := by
  split
  · exact s.commit_eq_ite target
  · exact State.commit_seqPc hpc (by decide)

/-- Settles O22: the commit of a jump that is taken when a is not 0. -/
theorem jitJumpsWhenNonZero : Obligations.JitJumpsWhenNonZero := by
  intro s a b hpc ha hb
  rw [exec_jit_of_readable ha hb, State.commit_jump hpc]

/-- Settles O23: the commit of a jump that is taken when a is 0. -/
theorem jifJumpsWhenZero : Obligations.JifJumpsWhenZero := by
  intro s a b hpc ha hb
  rw [exec_jif_of_readable ha hb, State.commit_jump hpc]

/-- Settles O24: the operand is read before rb is written. -/
theorem srbAddsToTheRelativeBase : Obligations.SrbAddsToTheRelativeBase := by
  intro s a hpc ha
  rw [exec_srb_of_readable ha]
  exact congrArg _ (State.commit_seqPc (s := { s with rb := aluAdd s.rb (s.sourceValue a) }) (n := 2) hpc (by decide))

/-- Settles O25: hlt commits the sentinel. -/
theorem hltHaltsAndKeepsThePc : Obligations.HltHaltsAndKeepsThePc := fun s => by
  rw [exec_hlt, State.commit_sentinel]

/-! ### Faults and waits -/

/-- Settles O28: the two sources in order, then the store with its two faults. -/
theorem threeOperandFaultsInOrder : Obligations.ThreeOperandFaultsInOrder := by
  intro s a b c i hi
  obtain ⟨f, hf⟩ := exec_eq_execBinary_of_mem hi s
  rw [hf]
  refine ⟨fun ea hea hneg => withSource_of_neg hea hneg, fun ea ha hea hneg => ?_, fun ha hb hc => ?_,
    fun ea ha hb hea hneg => ?_⟩
  · rw [execBinary, withSource_of_readable ha, withSource_of_neg hea hneg]
  · rw [execBinary_of_readable ha hb, storeAndAdvance_of_opAddr_none _ _ (State.opAddr_eq_none_iff.mpr hc)]
  · rw [execBinary_of_readable ha hb, storeAndAdvance_of_neg _ _ hea hneg]

/-- Settles O29: each of the four begins with a, and a jump reads b whatever a's value is. -/
theorem sourceFaultsOfOutSrbAndJumps : Obligations.SourceFaultsOfOutSrbAndJumps := by
  refine fun s a b ea hneg => ⟨fun hea i hi => ?_, fun ha hea i hi => ?_⟩ <;>
    simp only [List.mem_cons, List.not_mem_nil, or_false] at hi
  · obtain rfl | rfl | rfl | rfl := hi <;> exact withSource_of_neg hea hneg
  · have hb (taken : Word → Bool) : execJump taken a b s = .next (s.raise ⟨.addressFault, ea⟩) := by
      rw [execJump, withSource_of_readable ha, withSource_of_neg hea hneg]
    obtain rfl | rfl := hi
    · exact hb wordTrue
    · exact hb wordFalse

/-- Settles O31: the store starts from the state in which the word has been taken. -/
theorem inConsumesItsWordBeforeAnAddressFault : Obligations.InConsumesItsWordBeforeAnAddressFault := by
  intro s a v ea hv hea hneg
  rw [exec_inp_of_value a hv]
  exact storeAndAdvance_of_neg (s := { s with inEnv := s.inEnv.next }) v 2 hea hneg

end Sys2Proof.Machine

/-!
PROOFS. The ports as sequences of answers (spec/42_io.md R95, R96, R99): the answers after the first, the words among them,
and an environment for any answers.
-/

namespace Sys2Proof.Machine

/-! ### The answers in order (R95, R96) -/

theorem InEnv.answerAt_zero (e : InEnv) : e.answerAt 0 = e.answer := by
  obtain ⟨_ | ⟨x, xs⟩, r⟩ := e <;> rfl

theorem OutEnv.answerAt_zero (e : OutEnv) : e.answerAt 0 = e.answer := by
  obtain ⟨_ | ⟨x, xs⟩, r⟩ := e <;> rfl

/-- R95: once an answer is given the later ones move up. -/
theorem InEnv.answerAt_next (e : InEnv) (k : Nat) : e.next.answerAt k = e.answerAt (k + 1) := by
  obtain ⟨_ | ⟨x, xs⟩, r⟩ := e <;> simp

/-- R96: once an answer is given the later ones move up. -/
theorem OutEnv.answerAt_next (e : OutEnv) (k : Nat) : e.next.answerAt k = e.answerAt (k + 1) := by
  obtain ⟨_ | ⟨x, xs⟩, r⟩ := e <;> simp

/-- R95: `end` is for good. -/
theorem InEnv.answerAt_succ_of_ended (k : Nat) {e : InEnv} (h : e.answerAt k = .ended) : e.answerAt (k + 1) = .ended := by
  induction k generalizing e with
  | zero =>
    rw [InEnv.answerAt_zero] at h
    rw [InEnv.eq_of_answer_ended h]
    rfl
  | succ k ih =>
    rw [← InEnv.answerAt_next] at h ⊢
    exact ih h

/-! ### An environment for any answers -/

/-- R95: an answer that is not `end` can be listed. -/
theorem InAnswer.exists_event {x : InAnswer} (h : x ≠ .ended) : ∃ ev : InEvent, ev.answer = x := by
  cases x with
  | value v => exact ⟨.value v, rfl⟩
  | wait => exact ⟨.wait, rfl⟩
  | ended => exact absurd rfl h

/-- R95, R3: `n` answers listed, and then those of `r`. -/
theorem InEnv.exists_answerAt_eq (r : InRest) (n : Nat) {f : Nat → InAnswer} (hlist : ∀ k < n, f k ≠ .ended)
    (hrest : ∀ k, f (n + k) = r.answerAt k) : ∃ e : InEnv, ∀ k, e.answerAt k = f k := by
  induction n generalizing f with
  | zero => exact ⟨⟨[], r⟩, fun k => by rw [InEnv.answerAt_nil, ← hrest, Nat.zero_add]⟩
  | succ n ih =>
    obtain ⟨ev, hev⟩ := InAnswer.exists_event (hlist 0 n.succ_pos)
    obtain ⟨⟨xs, r'⟩, he⟩ := ih (f := fun k => f (k + 1)) (fun k hk => hlist (k + 1) (by omega))
      (fun k => by rw [← hrest, Nat.add_right_comm])
    refine ⟨⟨ev :: xs, r'⟩, fun k => ?_⟩
    cases k with
    | zero => rw [InEnv.answerAt_cons_zero, hev]
    | succ k => rw [InEnv.answerAt_cons_succ, he]

/-- R95: answers in which `end` is for good, and which do end, are those of an environment that lists them up to there. -/
theorem InEnv.exists_of_ends {f : Nat → InAnswer} (hend : ∀ k, f k = .ended → f (k + 1) = .ended)
    (h : ∃ k, f k = .ended) : ∃ e : InEnv, ∀ k, e.answerAt k = f k := by
  refine InEnv.exists_answerAt_eq .ended (Nat.find h) (fun k hk => Nat.find_min h hk) fun k => ?_
  induction k with
  | zero => exact Nat.find_spec h
  | succ k ih => exact hend _ ih

/-- R95: answers in which `end` is for good are, to any length, those of an environment. -/
theorem InEnv.exists_of_length {f : Nat → InAnswer} (hend : ∀ k, f k = .ended → f (k + 1) = .ended) (n : Nat) :
    ∃ e : InEnv, ∀ k < n, e.answerAt k = f k := by
  by_cases h : ∃ k, f k = .ended
  · obtain ⟨e, he⟩ := InEnv.exists_of_ends hend h
    exact ⟨e, fun k _ => he k⟩
  · obtain ⟨e, he⟩ := InEnv.exists_answerAt_eq .waits n (f := fun k => if k < n then f k else .wait)
      (fun k hk => by simpa [hk] using fun hk' => h ⟨k, hk'⟩) (fun k => by simp [InRest.answerAt])
    exact ⟨e, fun k hk => by rw [he, if_pos hk]⟩

/-- R96: any answers, to any length, are those of an environment that lists them. -/
theorem OutEnv.exists_of_length (f : Nat → OutAnswer) (n : Nat) : ∃ e : OutEnv, ∀ k < n, e.answerAt k = f k :=
  ⟨⟨(List.range n).map f, .accepts⟩, fun k hk => by simp [OutEnv.answerAt, hk]⟩

/-- Settles O34: the operations of the two ports, the order of the answers, and an environment for any answers. -/
theorem portAnswersComeInOrder : Obligations.PortAnswersComeInOrder := by
  refine ⟨fun s => ⟨?_, fun v => ?_⟩, fun e k => ⟨e.answerAt_next k, InEnv.answerAt_succ_of_ended k, fun h => ?_⟩,
    OutEnv.answerAt_next, fun f hend => ⟨InEnv.exists_of_ends hend, InEnv.exists_of_length hend⟩,
    OutEnv.exists_of_length⟩
  · rw [InEnv.answerAt_zero, s.inRecv_eq, State.inAnswer]
  · rw [OutEnv.answerAt_zero, s.outSend_eq, State.outAnswer]
  · exact InEnv.next_of_ended (e.answerAt_zero ▸ h)

/-! ### The words to come (R99) -/

/-- R99: the word an answer brings, if any. -/
def InAnswer.word? : InAnswer → Option Word
  | .value v => some v
  | .wait => none
  | .ended => none

theorem InEnv.words_eq (e : InEnv) (n : Nat) : e.words n = (List.range n).filterMap fun k => (e.answerAt k).word? := rfl

/-- R99: the words among the next answers are that of the first and those of the later ones. -/
theorem InEnv.words_succ (e : InEnv) (n : Nat) : e.words (n + 1) = e.answer.word?.toList ++ e.next.words n := by
  simp only [InEnv.words_eq, InEnv.answerAt_next, List.range_succ_eq_map, List.filterMap_cons, List.filterMap_map,
    Function.comp_def, InEnv.answerAt_zero]
  cases e.answer.word? <;> rfl

/-- R99: a receive that brings no word leaves the words to come as they are. -/
theorem InEnv.words_succ_of_no_value {e : InEnv} (h : ∀ v, e.answer ≠ .value v) (n : Nat) :
    e.words (n + 1) = e.next.words n := by
  rw [InEnv.words_succ]
  cases he : e.answer with
  | value v => exact absurd he (h v)
  | wait => rfl
  | ended => rfl

/-- R99: a receive that brings a word takes it from the front. -/
theorem InEnv.words_succ_of_value {e : InEnv} {v : Word} (h : e.answer = .value v) (n : Nat) :
    e.words (n + 1) = v :: e.next.words n := by
  rw [InEnv.words_succ, h]
  rfl

/-- Settles O33: the answer `wait` brings no word and delivers none. -/
theorem waitAnswersStall : Obligations.WaitAnswersStall := by
  refine fun s a => ⟨fun h => ⟨exec_inp_of_wait a h, ?_⟩, fun ha ho => ?_⟩
  · have hwait : s.inEnv.answer = .wait := h
    exact InEnv.words_succ_of_no_value (by simp [hwait])
  · rw [exec_out_of_readable ha, ho, if_neg (by decide)]

end Sys2Proof.Machine

/-!
PROOFS. What a step can do, said once for every instruction (spec/10_state.md R25, spec/40_step_and_operands.md R70 to R81),
and what follows from it for each step: totality, the frame, precise faults, halts and the invariant.
-/

namespace Sys2Proof.Machine

/-! ### The traps of fetch and of the execute stage (R121 to R127) -/

/-- R122 to R127 items 1 to 5: fetch fails with an AddressFault at a negative address, or because the word at pc is no
opcode word. -/
theorem State.fetchInstr_error {s : State} {f : Trap} (h : s.fetchInstr = .error f) :
    (f.kind = .addressFault ∧ f.val.toInt < 0) ∨
      ∃ e, 0 ≤ s.pc.toInt ∧ decodeHead (s.mem.read s.pc.toNat) = .error e ∧ f = headTrap e := by
  by_cases hpc : s.pc.toInt < 0
  · rw [State.fetchInstr_of_pc_neg hpc] at h
    cases h
    exact .inl ⟨rfl, hpc⟩
  · have hpc : 0 ≤ s.pc.toInt := Int.not_lt.mp hpc
    simp only [State.fetchInstr, State.memRead_of_nonneg hpc] at h
    split at h
    · rename_i e he
      cases h
      exact .inr ⟨e, hpc, he, rfl⟩
    · split at h
      · rename_i hwords
        cases h
        exact .inl (State.fetchWords_error hwords)
      · cases h

/-- R61: a failed check reports the word that was checked. -/
theorem decodeHead_error {w : Word} {e : HeadError} (h : decodeHead w = .error e) :
    e = .unknownOpcode w ∨ e = .unknownMode w := by
  unfold decodeHead at h
  split at h
  · cases h; exact .inl rfl
  · split at h
    · split at h
      · cases h
      · cases h; exact .inl rfl
    · cases h; exact .inr rfl

/-- R126: fetch never finds the input at its end. -/
theorem State.fetchInstr_error_kind {s : State} {f : Trap} (h : s.fetchInstr = .error f) : f.kind ≠ .inputExhausted := by
  obtain ⟨hk, _⟩ | ⟨e, _, _, rfl⟩ := State.fetchInstr_error h
  · simp [hk]
  · cases e <;> simp [headTrap]

/-- R122 to R125: the report of a trap of fetch. -/
theorem State.fetchInstr_error_report {s : State} {f : Trap} (h : s.fetchInstr = .error f) :
    (s.raise f).FaultReport f.kind := by
  obtain ⟨hk, hv⟩ | ⟨e, hpc, he, rfl⟩ := State.fetchInstr_error h
  · simpa only [hk, State.FaultReport, State.raise_faultVal] using hv
  · obtain rfl | rfl := decodeHead_error he
    · exact ⟨hpc, rfl, he⟩
    · exact ⟨hpc, rfl, he⟩

/-- R72, R73: an instruction that is fetched is made of an opcode word's head and the operand words after it. -/
theorem State.fetchInstr_ok {s : State} {i : Instr} (h : s.fetchInstr = .ok i) :
    ∃ (hd : Head) (ws : List Word), s.fetchWords 1 hd.op.arity = .ok ws ∧ i = hd.assemble ws := by
  unfold State.fetchInstr at h
  split at h
  · cases h
  · split at h
    · cases h
    · split at h
      · cases h
      · rename_i hd _ _ ws hws
        cases h
        exact ⟨hd, ws, hws, rfl⟩

/-- R124: the destination of a fetched instruction has the word of the first or of the third operand in memory. -/
theorem State.fetchInstr_dest {s : State} {i : Instr} {c : Operand} (h : s.fetchInstr = .ok i) (hc : i.dest = some c) :
    c.raw = s.mem.read (s.wordAddr 1).toNat ∨ c.raw = s.mem.read (s.wordAddr 3).toNat := by
  obtain ⟨hd, ws, hws, rfl⟩ := State.fetchInstr_ok h
  have hget := State.fetchWords_getD hws
  obtain ⟨hlen, hraw⟩ | ⟨hlen, hraw⟩ := Head.assemble_dest hc
  · exact .inl (hraw.trans (hget 0 hlen))
  · exact .inr (hraw.trans (hget 2 hlen))

/-- R124, R125: the traps the execute stage raises at an operand: a negative address, or the raw word of an immediate
destination. -/
def OperandTrap (i : Instr) (f : Trap) : Prop :=
  (f.kind = .addressFault ∧ f.val.toInt < 0) ∨ (f.kind = .writeToImmediate ∧ ∃ c, i.dest = some c ∧ f.val = c.raw)

/-! ### The effects of the execute stage -/

/-- R74, R25: what the execute stage of an instruction can make of a state. -/
inductive ExecEffect (s : State) : Instr → State → Prop
  /-- R81: a source or a destination faults -/
  | fault {i f} (hin : ∀ a, i ≠ .inp a) (hf : OperandTrap i f) : ExecEffect s i (s.raise f)
  /-- R90, R91, R105, R106 -/
  | store {i c d} (v : Word) (hin : ∀ a, i ≠ .inp a) (hdest : i.dest = some c) (hd : s.destCell c = some d) :
    ExecEffect s i (State.commit { s with mem := s.mem.write d v } (s.seqPc 4))
  /-- R100 -/
  | jit (a b) :
    ExecEffect s (.jit a b) (s.commit (if s.sourceValue a ≠ 0#64 then s.sourceValue b else s.seqPc 3))
  /-- R101 -/
  | jif (a b) :
    ExecEffect s (.jif a b) (s.commit (if s.sourceValue a = 0#64 then s.sourceValue b else s.seqPc 3))
  /-- R110 -/
  | srb (a) : ExecEffect s (.srb a) (State.commit { s with rb := aluAdd s.rb (s.sourceValue a) } (s.seqPc 2))
  /-- R113 -/
  | hlt : ExecEffect s .hlt (s.commit haltSentinel)
  /-- R98, R82 -/
  | outWait (a) : ExecEffect s (.out a) { s with outEnv := s.outEnv.next }
  /-- R98 -/
  | outAccept (a) (hr : s.readable a = true) (ho : s.outAnswer = .accept) :
    ExecEffect s (.out a)
      (State.commit { s with outEnv := s.outEnv.next, sent := s.sent ++ [s.sourceValue a] } (s.seqPc 2))
  /-- R97, R82 -/
  | inWait (a) : ExecEffect s (.inp a) { s with inEnv := s.inEnv.next }
  /-- R126 -/
  | inEnded (a) (he : s.inAnswer = .ended) :
    ExecEffect s (.inp a) (State.raise { s with inEnv := s.inEnv.next } ⟨.inputExhausted, 0#64⟩)
  /-- R97, R81: the word is consumed although the store faults -/
  | inFault {a f} (hf : OperandTrap (.inp a) f) :
    ExecEffect s (.inp a) (State.raise { s with inEnv := s.inEnv.next } f)
  /-- R97 -/
  | inStore {a d} (v : Word) (hd : s.destCell a = some d) :
    ExecEffect s (.inp a) (State.commit { s with inEnv := s.inEnv.next, mem := s.mem.write d v } (s.seqPc 2))

theorem ExecEffect.of_execBinary {f : Word → Word → Word} {a b c : Operand} {s t : State} {i : Instr}
    (hin : ∀ x, i ≠ .inp x) (hdest : i.dest = some c) (h : execBinary f a b c s = .next t) : ExecEffect s i t := by
  obtain ⟨_, _, d, hd, rfl⟩ | ⟨ea, hneg, rfl⟩ | ⟨_, rfl⟩ := execBinary_next h
  · exact .store _ hin hdest hd
  · exact .fault hin (.inl ⟨rfl, hneg⟩)
  · exact .fault hin (.inr ⟨rfl, c, hdest, rfl⟩)

/-- R74: every next state of the execute stage is one of the effects. -/
theorem exec_effect {i : Instr} {s t : State} (h : exec i s = .next t) : ExecEffect s i t := by
  cases i with
  | add a b c => exact .of_execBinary (by simp) rfl h
  | mul a b c => exact .of_execBinary (by simp) rfl h
  | lt a b c => exact .of_execBinary (by simp) rfl h
  | eq a b c => exact .of_execBinary (by simp) rfl h
  | jit a b =>
    obtain ⟨_, _, rfl⟩ | ⟨ea, hneg, rfl⟩ := execJump_next h
    · simpa only [wordTrue, decide_eq_true_eq] using ExecEffect.jit (s := s) a b
    · exact .fault (by simp) (.inl ⟨rfl, hneg⟩)
  | jif a b =>
    obtain ⟨_, _, rfl⟩ | ⟨ea, hneg, rfl⟩ := execJump_next h
    · simpa only [wordFalse, decide_eq_true_eq] using ExecEffect.jif (s := s) a b
    · exact .fault (by simp) (.inl ⟨rfl, hneg⟩)
  | srb a =>
    obtain ⟨_, rfl⟩ | ⟨ea, hneg, rfl⟩ := execSrb_next h
    · exact .srb a
    · exact .fault (by simp) (.inl ⟨rfl, hneg⟩)
  | hlt => exact next_inj h ▸ .hlt
  | out a =>
    obtain ⟨_, _, rfl⟩ | ⟨hr, ho, rfl⟩ | ⟨_, ea, _, hneg, rfl⟩ := execOut_next h
    · exact .outWait a
    · exact .outAccept a hr ho
    · exact .fault (by simp) (.inl ⟨rfl, hneg⟩)
  | inp a =>
    obtain ⟨_, rfl⟩ | ⟨he, rfl⟩ | ⟨v, _, ⟨d, hd, rfl⟩ | ⟨_, rfl⟩ | ⟨ea, hneg, rfl⟩⟩ := execIn_next h
    · exact .inWait a
    · exact .inEnded a he
    · exact .inStore v hd
    · exact .inFault (.inr ⟨rfl, a, rfl, rfl⟩)
    · exact .inFault (.inl ⟨rfl, hneg⟩)

/-- R70, R81: what a step of a RUNNING core can do. -/
theorem step_effect {s t : State} (hr : s.runState = .running) (h : step s = .next t) :
    (∃ f, s.fetchInstr = .error f ∧ t = s.raise f) ∨ ∃ i, s.fetchInstr = .ok i ∧ ExecEffect s i t := by
  obtain ⟨hnot, _⟩ | ⟨_, herr | ⟨i, hi, he⟩⟩ := step_next h
  · exact absurd hr hnot
  · exact .inl herr
  · exact .inr ⟨i, hi, exec_effect he⟩

/-! ### Precise faults and halts (R79, R81, R102) -/

/-- R79: a commit never faults. -/
theorem State.commit_ne_faulted {s : State} (hr : s.runState = .running) (n : Word) : (s.commit n).runState ≠ .faulted := by
  rw [State.commit_runState, hr]
  split <;> simp

/-- Settles O52: only the effects that raise a trap are FAULTED, and these change the status and the input port alone. -/
theorem faultsArePrecise : Obligations.FaultsArePrecise := by
  intro s t hr h hf
  obtain ⟨f, _, rfl⟩ | ⟨i, _, he⟩ := step_effect hr h
  · exact ⟨rfl, rfl, rfl, rfl, rfl⟩
  · cases he with
    | fault => exact ⟨rfl, rfl, rfl, rfl, rfl⟩
    | inEnded => exact ⟨rfl, rfl, rfl, rfl, rfl⟩
    | inFault => exact ⟨rfl, rfl, rfl, rfl, rfl⟩
    | outWait => simp [hr] at hf
    | inWait => simp [hr] at hf
    | store | jit | jif | srb | hlt | outAccept | inStore => exact absurd hf (State.commit_ne_faulted (by exact hr) _)

/-- R79, R80: a commit of a sequential next pc does not halt. -/
theorem State.commit_seqPc_ne_halted {s u : State} {n : Nat} (hr : u.runState = .running) (hpc : 0 ≤ s.pc.toInt)
    (hn : n ≤ 4) : (u.commit (s.seqPc n)).runState ≠ .halted := by
  rw [State.commit_runState, if_neg (State.seqPc_ne_haltSentinel hpc hn), hr]
  simp

/-- R79, R102: a jump halts only where it is taken to -1, and then nothing but run_state changes. -/
theorem State.commit_jump_halted {s : State} {taken : Prop} [Decidable taken] {target : Word}
    (hr : s.runState = .running) (hpc : 0 ≤ s.pc.toInt)
    (h : (s.commit (if taken then target else s.seqPc 3)).runState = .halted) :
    s.commit (if taken then target else s.seqPc 3) = { s with runState := .halted } ∧ taken ∧ target.toInt = -1 := by
  rw [State.commit_jump hpc] at h ⊢
  by_cases ht : taken <;> by_cases hm : target.toInt = -1 <;> simp_all

/-- Settles O53: of the effects only those of hlt and of the jumps commit a next pc that can be the sentinel. -/
theorem onlyHltAndJumpsToMinusOneHalt : Obligations.OnlyHltAndJumpsToMinusOneHalt := by
  intro s t hr h ht
  obtain ⟨f, _, rfl⟩ | ⟨i, hi, he⟩ := step_effect hr h
  · cases ht
  · have hpc := State.fetchInstr_pc_nonneg hi
    cases he with
    | fault => cases ht
    | inEnded => cases ht
    | inFault => cases ht
    | outWait => simp [hr] at ht
    | inWait => simp [hr] at ht
    | store | srb | outAccept | inStore =>
      exact absurd ht (State.commit_seqPc_ne_halted (by exact hr) hpc (by decide))
    | hlt => exact ⟨State.commit_sentinel s, .inl hi⟩
    | jit a b =>
      obtain ⟨heq, htrue, hminus⟩ := State.commit_jump_halted hr hpc ht
      exact ⟨heq, .inr (.inl ⟨a, b, hi, htrue, hminus⟩)⟩
    | jif a b =>
      obtain ⟨heq, hfalse, hminus⟩ := State.commit_jump_halted hr hpc ht
      exact ⟨heq, .inr (.inr ⟨a, b, hi, hfalse, hminus⟩)⟩

/-! ### The invariant (R17 to R20) -/

/-- R17: a commit from a non-negative pc keeps a RUNNING core's status consistent. -/
theorem State.commit_statusConsistent {s : State} {n : Word} (hr : s.runState = .running)
    (hs : s.cause = none ∧ s.faultVal = 0#64) (hpc : 0 ≤ s.pc.toInt) : (s.commit n).StatusConsistent := by
  obtain ⟨hcause, hval⟩ := hs
  unfold State.commit
  split
  · exact ⟨hcause, hval, hpc⟩
  · simp only [State.StatusConsistent, hr]
    exact ⟨hcause, hval⟩

/-- R121: the status after a fault entry is consistent when the report is that of the fault. -/
theorem State.raise_statusConsistent {s : State} {f : Trap} (h : (s.raise f).FaultReport f.kind) :
    (s.raise f).StatusConsistent := ⟨f.kind, rfl, h⟩

/-- R124, R125: the report of a trap that a fetched instruction raises at an operand. -/
theorem State.operandTrap_report {s : State} {i : Instr} {f : Trap} (hi : s.fetchInstr = .ok i)
    (hf : OperandTrap i f) : (s.raise f).FaultReport f.kind := by
  obtain ⟨hk, hneg⟩ | ⟨hk, c, hc, hv⟩ := hf
  · simpa only [hk, State.FaultReport, State.raise_faultVal] using hneg
  · have hpc := State.fetchInstr_pc_nonneg hi
    have hraw := State.fetchInstr_dest hi hc
    rw [← hv] at hraw
    simp only [hk, State.FaultReport]
    exact ⟨hpc, hraw⟩

/-- Settles O54: each effect keeps memory as it is or writes one cell, and commits or raises with a report. -/
theorem stepKeepsTheInvariant : Obligations.StepKeepsTheInvariant := by
  rintro s t ⟨hwf, hs⟩ h
  by_cases hr : s.runState = .running
  case neg =>
    rw [step_of_not_running hr] at h
    exact next_inj h ▸ ⟨hwf, hs⟩
  obtain ⟨f, hf, rfl⟩ | ⟨i, hi, he⟩ := step_effect hr h
  · exact ⟨hwf, State.raise_statusConsistent (State.fetchInstr_error_report hf)⟩
  have hpc := State.fetchInstr_pc_nonneg hi
  have hrun : s.cause = none ∧ s.faultVal = 0#64 := by simpa only [State.StatusConsistent, hr] using hs
  have hwrite {o : Operand} {d : Nat} (v : Word) (hd : s.destCell o = some d) : (s.mem.write d v).wf = true :=
    Memory.write_wf v (State.destCell_le_amax hd) hwf
  cases he with
  | fault _ hf => exact ⟨hwf, State.raise_statusConsistent (State.operandTrap_report hi hf)⟩
  | inFault hf =>
    have hreport := State.operandTrap_report hi hf
    exact ⟨hwf, State.raise_statusConsistent hreport⟩
  | inEnded => exact ⟨hwf, State.raise_statusConsistent ⟨hpc, rfl⟩⟩
  | store v _ _ hd => exact ⟨by simpa using hwrite v hd, State.commit_statusConsistent hr hrun hpc⟩
  | inStore v hd => exact ⟨by simpa using hwrite v hd, State.commit_statusConsistent hr hrun hpc⟩
  | jit | jif | srb | hlt | outAccept => exact ⟨by simpa using hwf, State.commit_statusConsistent hr hrun hpc⟩
  | outWait => exact ⟨hwf, hs⟩
  | inWait => exact ⟨hwf, hs⟩

end Sys2Proof.Machine

/-!
PROOFS. Two states with the same core behind different ports (spec/10_state.md R23, R25, spec/40_step_and_operands.md R74,
R82): a step does the same in both as long as the ports it asks give the same answers. With the states equal this says that
every step answers a next state.
-/

namespace Sys2Proof.Machine

/-! ### The relation -/

/-- R10: the six items of the core are the same, and the environments are related by `RI`, `RO` and `RS`. -/
structure SameCore (RI : InEnv → InEnv → Prop) (RO : OutEnv → OutEnv → Prop) (RS : List Word → List Word → Prop)
    (s s' : State) : Prop where
  pc       : s'.pc = s.pc
  rb       : s'.rb = s.rb
  runState : s'.runState = s.runState
  cause    : s'.cause = s.cause
  faultVal : s'.faultVal = s.faultVal
  mem      : s'.mem = s.mem
  inEnv    : RI s.inEnv s'.inEnv
  outEnv   : RO s.outEnv s'.outEnv
  sent     : RS s.sent s'.sent

/-- Both outcomes are next states, and these are related. -/
def NextRelated (R : State → State → Prop) (x y : Host.Outcome State Fault Refusal) : Prop :=
  ∃ t t', x = .next t ∧ y = .next t' ∧ R t t'

theorem NextRelated.of_next {R : State → State → Prop} {s s' : State} (h : R s s') :
    NextRelated R (.next s) (.next s') := ⟨s, s', rfl, rfl, h⟩

section
variable {RI : InEnv → InEnv → Prop} {RO : OutEnv → OutEnv → Prop} {RS : List Word → List Word → Prop} {s s' : State}

/-- A state with the same core is the other one in its own environments. -/
theorem SameCore.eq (h : SameCore RI RO RS s s') :
    s' = { s with inEnv := s'.inEnv, outEnv := s'.outEnv, sent := s'.sent } := by
  ext1
  exacts [h.pc, h.rb, h.runState, h.cause, h.faultVal, h.mem, rfl, rfl, rfl]

theorem SameCore.raise (h : SameCore RI RO RS s s') (t : Trap) : SameCore RI RO RS (s.raise t) (s'.raise t) :=
  { h with runState := rfl, cause := rfl, faultVal := rfl }

theorem SameCore.commit (h : SameCore RI RO RS s s') (n : Word) : SameCore RI RO RS (s.commit n) (s'.commit n) := by
  unfold State.commit
  split
  · exact { h with runState := rfl }
  · exact { h with pc := rfl }

theorem SameCore.write (h : SameCore RI RO RS s s') (d : Nat) (v : Word) :
    SameCore RI RO RS { s with mem := s.mem.write d v } { s' with mem := s'.mem.write d v } :=
  { h with mem := by rw [h.mem] }

theorem SameCore.withRb (h : SameCore RI RO RS s s') (r : Word) :
    SameCore RI RO RS { s with rb := r } { s' with rb := r } := { h with rb := rfl }

theorem SameCore.seqPc (h : SameCore RI RO RS s s') (n : Nat) : s'.seqPc n = s.seqPc n := by
  rw [State.seqPc, State.seqPc, h.pc]

theorem SameCore.opAddr (h : SameCore RI RO RS s s') (o : Operand) : s'.opAddr o = s.opAddr o := by
  simp only [State.opAddr, h.rb]

theorem SameCore.readable (h : SameCore RI RO RS s s') (o : Operand) : s'.readable o = s.readable o := by
  simp only [State.readable, h.opAddr]

theorem SameCore.sourceValue (h : SameCore RI RO RS s s') (o : Operand) : s'.sourceValue o = s.sourceValue o := by
  simp only [State.sourceValue, h.opAddr, h.mem]

theorem SameCore.destCell (h : SameCore RI RO RS s s') (o : Operand) : s'.destCell o = s.destCell o := by
  simp only [State.destCell, h.opAddr]

/-! ### The shared shapes and the ports -/

/-- R76: both sources are read alike, or fault alike. -/
theorem SameCore.withSource (h : SameCore RI RO RS s s') {o : Operand}
    {k k' : Word → Host.Outcome State Fault Refusal}
    (hk : s.readable o = true → NextRelated (SameCore RI RO RS) (k (s.sourceValue o)) (k' (s.sourceValue o))) :
    NextRelated (SameCore RI RO RS) (withSource s o k) (withSource s' o k') := by
  obtain ⟨hr, e⟩ | ⟨ea, hea, hneg, e⟩ := withSource_cases s o k
  · rw [e, withSource_of_readable ((h.readable o).trans hr), h.sourceValue]
    exact hk hr
  · rw [e, withSource_of_neg ((h.opAddr o).trans hea) hneg]
    exact .of_next (h.raise _)

/-- R77: both stores are made alike, or fault alike. -/
theorem SameCore.storeAndAdvance (h : SameCore RI RO RS s s') (o : Operand) (v : Word) (n : Nat) :
    NextRelated (SameCore RI RO RS) (storeAndAdvance s o v n) (storeAndAdvance s' o v n) := by
  obtain ⟨d, hd, e⟩ | ⟨hnone, e⟩ | ⟨ea, hea, hneg, e⟩ := storeAndAdvance_cases s o v n
  · rw [e, storeAndAdvance_of_destCell ((h.destCell o).trans hd), h.seqPc]
    exact .of_next ((h.write d v).commit _)
  · rw [e, storeAndAdvance_of_opAddr_none v n ((h.opAddr o).trans hnone)]
    exact .of_next (h.raise _)
  · rw [e, storeAndAdvance_of_neg v n ((h.opAddr o).trans hea) hneg]
    exact .of_next (h.raise _)

theorem SameCore.execBinary (h : SameCore RI RO RS s s') (f : Word → Word → Word) (a b c : Operand) :
    NextRelated (SameCore RI RO RS) (execBinary f a b c s) (execBinary f a b c s') :=
  h.withSource fun _ => h.withSource fun _ => h.storeAndAdvance c _ 4

theorem SameCore.execJump (h : SameCore RI RO RS s s') (taken : Word → Bool) (a b : Operand) :
    NextRelated (SameCore RI RO RS) (execJump taken a b s) (execJump taken a b s') := by
  refine h.withSource fun _ => h.withSource fun _ => ?_
  rw [h.seqPc]
  exact .of_next (h.commit _)

theorem SameCore.execSrb (h : SameCore RI RO RS s s') (a : Operand) :
    NextRelated (SameCore RI RO RS) (execSrb a s) (execSrb a s') := by
  refine h.withSource fun _ => ?_
  rw [h.seqPc, h.rb]
  exact .of_next ((h.withRb _).commit _)

/-- R97: the same answer has the same effect. -/
theorem SameCore.execIn (h : SameCore RI RO RS s s') (a : Operand) (hanswer : s'.inAnswer = s.inAnswer)
    (hnext : RI s.inEnv.next s'.inEnv.next) :
    NextRelated (SameCore RI RO RS) (exec (.inp a) s) (exec (.inp a) s') := by
  have hmoved : SameCore RI RO RS { s with inEnv := s.inEnv.next } { s' with inEnv := s'.inEnv.next } :=
    { h with inEnv := hnext }
  cases hi : s.inAnswer with
  | wait =>
    rw [exec_inp_of_wait a hi, exec_inp_of_wait a (hanswer.trans hi)]
    exact .of_next hmoved
  | ended =>
    rw [exec_inp_of_ended a hi, exec_inp_of_ended a (hanswer.trans hi)]
    exact .of_next (hmoved.raise _)
  | value v =>
    rw [exec_inp_of_value a hi, exec_inp_of_value a (hanswer.trans hi)]
    exact hmoved.storeAndAdvance a v 2

/-- R98: the same answer has the same effect; where the operand faults no answer is asked for. -/
theorem SameCore.execOut (h : SameCore RI RO RS s s') (a : Operand)
    (hask : s.readable a = true → s'.outAnswer = s.outAnswer ∧ RO s.outEnv.next s'.outEnv.next ∧
      ∀ v, RS (s.sent ++ [v]) (s'.sent ++ [v])) :
    NextRelated (SameCore RI RO RS) (exec (.out a) s) (exec (.out a) s') := by
  refine h.withSource fun hr => ?_
  obtain ⟨hanswer, hnext, happend⟩ := hask hr
  rw [State.outSend_eq, State.outSend_eq, hanswer]
  cases s.outAnswer with
  | wait => exact .of_next { h with outEnv := hnext }
  | accept =>
    have hmoved : SameCore RI RO RS
        { s with outEnv := s.outEnv.next, sent := s.sent ++ [s.sourceValue a] }
        { s' with outEnv := s'.outEnv.next, sent := s'.sent ++ [s.sourceValue a] } :=
      { h with outEnv := hnext, sent := happend _ }
    exact .of_next (h.seqPc 2 ▸ hmoved.commit _)

/-! ### exec and the step -/

/-- R74: exec does the same in both states when the port it asks, if any, gives the same answer in both. -/
theorem SameCore.exec (h : SameCore RI RO RS s s') {i : Instr}
    (hin : ∀ a, i = .inp a → s'.inAnswer = s.inAnswer ∧ RI s.inEnv.next s'.inEnv.next)
    (hout : ∀ a, i = .out a → s.readable a = true → s'.outAnswer = s.outAnswer ∧ RO s.outEnv.next s'.outEnv.next ∧
      ∀ v, RS (s.sent ++ [v]) (s'.sent ++ [v])) :
    NextRelated (SameCore RI RO RS) (exec i s) (exec i s') := by
  cases i with
  | add a b c => exact h.execBinary aluAdd a b c
  | mul a b c => exact h.execBinary aluMul a b c
  | lt a b c => exact h.execBinary aluLt a b c
  | eq a b c => exact h.execBinary aluEq a b c
  | jit a b => exact h.execJump wordTrue a b
  | jif a b => exact h.execJump wordFalse a b
  | srb a => exact h.execSrb a
  | hlt => exact .of_next (h.commit haltSentinel)
  | inp a => exact (hin a rfl).elim (h.execIn a)
  | out a => exact h.execOut a (hout a rfl)

/-- R70: the same of a step, which fetches the same instruction in both states. -/
theorem SameCore.step (h : SameCore RI RO RS s s')
    (hin : ∀ a, s.runState = .running → s.fetchInstr = .ok (.inp a) →
      s'.inAnswer = s.inAnswer ∧ RI s.inEnv.next s'.inEnv.next)
    (hout : ∀ a, s.runState = .running → s.fetchInstr = .ok (.out a) → s.readable a = true →
      s'.outAnswer = s.outAnswer ∧ RO s.outEnv.next s'.outEnv.next ∧ ∀ v, RS (s.sent ++ [v]) (s'.sent ++ [v])) :
    NextRelated (SameCore RI RO RS) (step s) (step s') := by
  have hfetch : s'.fetchInstr = s.fetchInstr := fetchSeesOnlyPcAndMemory _ _ h.pc h.mem
  by_cases hr : s.runState = .running
  · have hr' := h.runState.trans hr
    cases hf : s.fetchInstr with
    | error t =>
      rw [step_of_fetch_error hr hf, step_of_fetch_error hr' (hfetch.trans hf)]
      exact .of_next (h.raise t)
    | ok i =>
      rw [step_of_fetch_ok hr hf, step_of_fetch_ok hr' (hfetch.trans hf)]
      exact h.exec (fun a ha => hin a hr (ha ▸ hf)) (fun a ha => hout a hr (ha ▸ hf))
  · rw [step_of_not_running hr, step_of_not_running (h.runState ▸ hr)]
    exact .of_next h

end

/-- Settles O47: a state has the same core as itself, and every port gives the answer it gives. -/
theorem everyStepAnswersANextState : Obligations.EveryStepAnswersANextState := by
  intro s
  have hself : SameCore Eq Eq Eq s s := ⟨rfl, rfl, rfl, rfl, rfl, rfl, rfl, rfl, rfl⟩
  obtain ⟨t, _, h, _⟩ := hself.step (fun _ _ _ => ⟨rfl, rfl⟩) (fun _ _ _ _ => ⟨rfl, rfl, fun _ => rfl⟩)
  exact ⟨t, h⟩

/-- Settles O59: any input environment may stand beside the one of `s`, since only in asks it. -/
theorem unreadInputHasNoInfluence : Obligations.UnreadInputHasNoInfluence := by
  intro i s t e hin h
  have hcore : SameCore (fun _ e' => e' = e) Eq Eq s { s with inEnv := e } :=
    ⟨rfl, rfl, rfl, rfl, rfl, rfl, rfl, rfl, rfl⟩
  obtain ⟨u, u', hu, hu', hrel⟩ :=
    hcore.exec (i := i) (fun a ha => absurd ha (hin a)) (fun _ _ _ => ⟨rfl, rfl, fun _ => rfl⟩)
  obtain rfl := next_inj (h.symm.trans hu)
  rw [hu', hrel.eq, hrel.inEnv, ← hrel.outEnv, ← hrel.sent]

/-- Settles O60: the words sent are only ever appended to. -/
theorem outputHistoryHasNoInfluence : Obligations.OutputHistoryHasNoInfluence := by
  intro s t earlier h
  have hcore : SameCore Eq Eq (fun w w' => w' = earlier ++ w) s { s with sent := earlier ++ s.sent } :=
    ⟨rfl, rfl, rfl, rfl, rfl, rfl, rfl, rfl, rfl⟩
  obtain ⟨u, u', hu, hu', hrel⟩ :=
    hcore.step (fun _ _ _ => ⟨rfl, rfl⟩) (fun _ _ _ _ => ⟨rfl, rfl, fun _ => List.append_assoc _ _ _⟩)
  obtain rfl := next_inj (h.symm.trans hu)
  rw [hu', hrel.eq, ← hrel.inEnv, ← hrel.outEnv, hrel.sent]

end Sys2Proof.Machine

/-!
PROOFS. The frame of exec and the traffic of a step (spec/10_state.md R25, spec/42_io.md R99), read off the effects of the
execute stage field by field.
-/

namespace Sys2Proof.Machine

/-! ### The effects, field by field -/

section
variable {s t : State} {i : Instr}

/-- R20: only the cell of a destination is written. -/
theorem ExecEffect.mem (h : ExecEffect s i t) :
    t.mem = s.mem ∨ ∃ o d v, i.dest = some o ∧ s.destCell o = some d ∧ t.mem = s.mem.write d v := by
  cases h with
  | store v _ hdest hd => exact .inr ⟨_, _, v, hdest, hd, by simp⟩
  | inStore v hd => exact .inr ⟨_, _, v, rfl, hd, by simp⟩
  | fault | inEnded | inFault | outWait | inWait => exact .inl rfl
  | jit | jif | srb | hlt | outAccept => exact .inl (by simp)

/-- R15: only srb writes rb. -/
theorem ExecEffect.rb (h : ExecEffect s i t) :
    t.rb = s.rb ∨ ∃ a, i = .srb a ∧ t.rb = aluAdd s.rb (s.sourceValue a) := by
  cases h with
  | srb a => exact .inr ⟨a, rfl, by simp⟩
  | fault | inEnded | inFault | outWait | inWait => exact .inl rfl
  | store | jit | jif | hlt | outAccept | inStore => exact .inl (by simp)

/-- R95: only in asks the input environment, once. -/
theorem ExecEffect.inEnv (h : ExecEffect s i t) :
    ((∀ a, i ≠ .inp a) ∧ t.inEnv = s.inEnv) ∨ ((∃ a, i = .inp a) ∧ t.inEnv = s.inEnv.next) := by
  cases h with
  | fault hin => exact .inl ⟨hin, rfl⟩
  | store _ hin => exact .inl ⟨hin, by simp⟩
  | outWait => exact .inl ⟨by simp, rfl⟩
  | jit | jif | srb | hlt | outAccept => exact .inl (by simp)
  | inWait | inEnded | inFault => exact .inr ⟨⟨_, rfl⟩, rfl⟩
  | inStore => exact .inr ⟨⟨_, rfl⟩, by simp⟩

/-- R96: only out asks the output environment. -/
theorem ExecEffect.outEnv (h : ExecEffect s i t) (hout : ∀ a, i ≠ .out a) : t.outEnv = s.outEnv := by
  cases h with
  | outWait a => exact absurd rfl (hout a)
  | outAccept a => exact absurd rfl (hout a)
  | fault | inEnded | inFault | inWait => rfl
  | store | jit | jif | srb | hlt | inStore => simp

/-- R96, R99: only an out that is accepted delivers a word. -/
theorem ExecEffect.sent (h : ExecEffect s i t) :
    t.sent = s.sent ∨ ∃ a, i = .out a ∧ s.readable a = true ∧ s.outAnswer = .accept := by
  cases h with
  | outAccept a hr ho => exact .inr ⟨a, rfl, hr, ho⟩
  | fault | inEnded | inFault | outWait | inWait => exact .inl rfl
  | store | jit | jif | srb | hlt | inStore => exact .inl (by simp)

/-- R18, R19, R121: only a fault entry writes cause and fault_val, and it writes little else. -/
theorem ExecEffect.status (h : ExecEffect s i t) :
    (t.cause = s.cause ∧ t.faultVal = s.faultVal) ∨
      (t.runState = .faulted ∧ t.pc = s.pc ∧ t.rb = s.rb ∧ t.mem = s.mem ∧ t.sent = s.sent) := by
  cases h with
  | fault | inEnded | inFault => exact .inr ⟨rfl, rfl, rfl, rfl, rfl⟩
  | outWait | inWait => exact .inl ⟨rfl, rfl⟩
  | store | jit | jif | srb | hlt | outAccept | inStore => exact .inl (by simp)

/-- R126: InputExhausted comes from the answer `end` alone. -/
theorem ExecEffect.cause_ne_inputExhausted (h : ExecEffect s i t) (hanswer : s.inAnswer ≠ .ended)
    (hcause : s.cause ≠ some .inputExhausted) : t.cause ≠ some .inputExhausted := by
  have htrap {j : Instr} {f : Trap} (hf : OperandTrap j f) : some f.kind ≠ some .inputExhausted := by
    obtain ⟨hk, _⟩ | ⟨hk, _⟩ := hf <;> simp [hk]
  cases h with
  | fault _ hf => exact htrap hf
  | inFault hf => exact htrap hf
  | inEnded _ he => exact absurd he hanswer
  | outWait | inWait => exact hcause
  | store | jit | jif | srb | hlt | outAccept | inStore => simpa using hcause

end

/-- Settles O48: the fields of an effect. -/
theorem execChangesOnlyWhatTheAccessSummaryAllows : Obligations.ExecChangesOnlyWhatTheAccessSummaryAllows := by
  intro i s t h
  have he := exec_effect h
  refine ⟨fun a hcell => ?_, fun hnone => ?_, fun hsrb => ?_, fun hin => ?_, fun hout => ⟨he.outEnv hout, ?_⟩, he.status⟩
  · obtain hmem | ⟨o, d, v, hdest, hd, hmem⟩ := he.mem
    · rw [hmem]
    · have hne : a ≠ d := fun had => hcell o hdest (had ▸ hd)
      rw [hmem, Memory.read_write, if_neg hne]
  · obtain hmem | ⟨o, _, _, hdest, _⟩ := he.mem
    · exact hmem
    · simp [hnone] at hdest
  · obtain hrb | ⟨a, ha, _⟩ := he.rb
    · exact hrb
    · exact absurd ha (hsrb a)
  · obtain ⟨_, henv⟩ | ⟨⟨a, ha⟩, _⟩ := he.inEnv
    · exact henv
    · exact absurd ha (hin a)
  · obtain hsent | ⟨a, ha, _⟩ := he.sent
    · exact hsent
    · exact absurd ha (hout a)

/-! ### One step (R15, R99) -/

/-- Settles O49: of the effects only srb's has another rb. -/
theorem onlySrbChangesTheRelativeBase : Obligations.OnlySrbChangesTheRelativeBase := by
  intro s t h hne
  by_cases hr : s.runState = .running
  case neg =>
    rw [step_of_not_running hr] at h
    exact absurd (congrArg State.rb (next_inj h)) hne
  obtain ⟨f, _, rfl⟩ | ⟨i, hi, he⟩ := step_effect hr h
  · exact absurd rfl hne
  · obtain hrb | ⟨a, rfl, hrb⟩ := he.rb
    · exact absurd hrb hne
    · exact ⟨a, hi, hrb⟩

section
variable {s t : State}

/-- R99: an accepted out delivers its operand's value. -/
theorem step_sent_of_accept {a : Operand} (h : step s = .next t) (hr : s.runState = .running)
    (hf : s.fetchInstr = .ok (.out a)) (ha : s.readable a = true) (ho : s.outAnswer = .accept) :
    t.sent = s.sent ++ [s.sourceValue a] := by
  rw [step_of_fetch_ok hr hf, exec_out_of_readable ha, if_pos ho] at h
  rw [next_inj h, State.commit_sent]

/-- R99: a step delivers nothing but by an accepted out. -/
theorem step_sent (h : step s = .next t) :
    t.sent = s.sent ∨ ∃ a, s.runState = .running ∧ s.fetchInstr = .ok (.out a) ∧ s.readable a = true ∧
      s.outAnswer = .accept := by
  obtain ⟨_, rfl⟩ | ⟨hr, ⟨f, _, rfl⟩ | ⟨i, hi, he⟩⟩ := step_next h
  · exact .inl rfl
  · exact .inl rfl
  · obtain hsent | ⟨a, rfl, ha, ho⟩ := (exec_effect he).sent
    · exact .inl hsent
    · exact .inr ⟨a, hr, hi, ha, ho⟩

/-- R96: a step that is no out asks nothing of the output environment. -/
theorem step_outEnv (h : step s = .next t) (hno : ∀ a, s.runState = .running → s.fetchInstr ≠ .ok (.out a)) :
    t.outEnv = s.outEnv := by
  obtain ⟨_, rfl⟩ | ⟨hr, ⟨f, _, rfl⟩ | ⟨i, hi, he⟩⟩ := step_next h
  · rfl
  · rfl
  · exact (exec_effect he).outEnv fun a ha => hno a hr (ha ▸ hi)

/-- R95: a step asks the input environment once if it is an in, and else not. -/
theorem step_inEnv (h : step s = .next t) :
    ((∀ a, s.runState = .running → s.fetchInstr ≠ .ok (.inp a)) ∧ t.inEnv = s.inEnv) ∨
      (s.runState = .running ∧ (∃ a, s.fetchInstr = .ok (.inp a)) ∧ t.inEnv = s.inEnv.next) := by
  obtain ⟨hnot, rfl⟩ | ⟨hr, ⟨f, hf, rfl⟩ | ⟨i, hi, he⟩⟩ := step_next h
  · exact .inl ⟨fun _ hr => absurd hr hnot, rfl⟩
  · exact .inl ⟨fun _ _ => by simp [hf], rfl⟩
  · obtain ⟨hin, henv⟩ | ⟨⟨a, rfl⟩, henv⟩ := (exec_effect he).inEnv
    · exact .inl ⟨fun a _ ha => hin a (Except.ok.inj (hi.symm.trans ha)), henv⟩
    · exact .inr ⟨hr, ⟨a, hi⟩, henv⟩

theorem step_inEnv_of_inp {a : Operand} (h : step s = .next t) (hr : s.runState = .running)
    (hf : s.fetchInstr = .ok (.inp a)) : t.inEnv = s.inEnv.next := by
  obtain ⟨hno, _⟩ | ⟨_, _, henv⟩ := step_inEnv h
  · exact absurd hf (hno a hr)
  · exact henv

end

/-- Settles O50: what a step does at each port, with the words that a receive leaves (`InEnv.words_succ`). -/
theorem portTrafficOfAStep : Obligations.PortTrafficOfAStep := by
  refine fun s t h => ⟨fun a hr => step_sent_of_accept h hr, fun hwait => ?_, step_outEnv h, fun a v hr hf hv n => ?_,
    fun a hr hf hno n => ?_, fun hno => ?_⟩
  · obtain hsent | ⟨a, hr, hf, ha, ho⟩ := step_sent h
    · exact hsent
    · exact absurd (ho.symm.trans (hwait a hr hf ha)) (by decide)
  · rw [step_inEnv_of_inp h hr hf, InEnv.words_succ_of_value hv]
  · rw [step_inEnv_of_inp h hr hf, InEnv.words_succ_of_no_value hno]
  · obtain ⟨_, henv⟩ | ⟨hr, ⟨a, ha⟩, _⟩ := step_inEnv h
    · exact henv
    · exact absurd ha (hno a hr)

end Sys2Proof.Machine

/-!
PROOFS. Runs (spec/10_state.md R17, spec/42_io.md R95, R99, spec/43_jump.md R102, spec/70_reset_and_hazards.md R147): what
every step keeps is kept by every run, the loops and stalls that are such invariants, and the traffic of a run.
-/

namespace Sys2Proof.Machine

/-- What every step keeps holds of the state that any number of steps answer. -/
theorem runSteps_keeps {P : State → Prop} (hstep : ∀ u u', P u → step u = .next u' → P u') (k : Nat) {s : State}
    (hs : P s) : ∃ t, runSteps k s = .next t ∧ P t := by
  induction k generalizing s with
  | zero => exact ⟨s, rfl, hs⟩
  | succ k ih =>
    obtain ⟨u, hu⟩ := everyStepAnswersANextState s
    rw [runSteps_succ hu]
    exact ih (hstep s u hs hu)

/-- A state that its step does not change is kept by every run. -/
theorem runSteps_of_step_self {s : State} (h : step s = .next s) (k : Nat) : runSteps k s = .next s := by
  obtain ⟨t, ht, rfl⟩ := runSteps_keeps (P := (· = s)) (fun u u' hu hu' => next_inj (h.symm.trans (hu ▸ hu'))) k rfl
  exact ht

/-- Settles O46: a step does not change such a state. -/
theorem haltedAndFaultedAreTerminal : Obligations.HaltedAndFaultedAreTerminal := fun _ k hr =>
  runSteps_of_step_self (step_of_not_running hr) k

/-! ### Jumps (R102) -/

/-- R100, R101: a taken jump commits its target. -/
theorem step_of_taken_jump {s : State} {a b : Operand} (hr : s.runState = .running) (ha : s.readable a = true)
    (hb : s.readable b = true)
    (h : (s.fetchInstr = .ok (.jit a b) ∧ s.sourceValue a ≠ 0#64) ∨
      (s.fetchInstr = .ok (.jif a b) ∧ s.sourceValue a = 0#64)) :
    step s = .next (s.commit (s.sourceValue b)) := by
  obtain ⟨hf, htrue⟩ | ⟨hf, hfalse⟩ := h
  · rw [step_of_fetch_ok hr hf, exec_jit_of_readable ha hb, if_pos htrue]
  · rw [step_of_fetch_ok hr hf, exec_jif_of_readable ha hb, if_pos hfalse]

/-- Settles O43: the target is committed, and the next fetch faults there. -/
theorem jumpBelowMinusOneFaultsAtTheNextFetch : Obligations.JumpBelowMinusOneFaultsAtTheNextFetch := by
  intro s a b hr ha hb hlt h
  rw [runSteps_succ (step_of_taken_jump hr ha hb h), runSteps_succ (step_commit_of_lt hr hlt), runSteps_zero]

/-- Settles O44: the committed target is pc itself, which a completed fetch has not negative and so not the sentinel. -/
theorem jumpToItselfLoopsForEver : Obligations.JumpToItselfLoopsForEver := by
  intro s a b k hr ha hb hself h
  have hpc : 0 ≤ s.pc.toInt := by
    obtain ⟨hf, _⟩ | ⟨hf, _⟩ := h <;> exact State.fetchInstr_pc_nonneg hf
  have hne : s.pc ≠ haltSentinel := fun he => by rw [eq_haltSentinel_iff] at he; omega
  refine runSteps_of_step_self ?_ k
  rw [step_of_taken_jump hr ha hb h, hself, State.commit_of_ne s hne]

/-! ### Stalls (R82, R147) -/

/-- R82: an in that is told to wait. -/
theorem step_of_in_wait {s : State} {a : Operand} (hr : s.runState = .running) (hf : s.fetchInstr = .ok (.inp a))
    (hw : s.inEnv.answer = .wait) : step s = .next { s with inEnv := s.inEnv.next } := by
  rw [step_of_fetch_ok hr hf, exec_inp_of_wait a hw]

/-- R82: an out that is told to wait. -/
theorem step_of_out_wait {s : State} {a : Operand} (hr : s.runState = .running) (hf : s.fetchInstr = .ok (.out a))
    (ha : s.readable a = true) (hw : s.outEnv.answer = .wait) : step s = .next { s with outEnv := s.outEnv.next } := by
  have hwait : ¬ s.outAnswer = .accept := by simp [State.outAnswer, hw]
  rw [step_of_fetch_ok hr hf, exec_out_of_readable ha, if_neg hwait]

/-- R147: `s` but for an input environment that answers `wait` for ever. -/
def State.InputWaits (s u : State) : Prop := ∃ e : InEnv, (∀ j, e.answerAt j = .wait) ∧ u = { s with inEnv := e }

/-- R147: `s` but for an output environment that answers `wait` for ever. -/
def State.OutputWaits (s u : State) : Prop := ∃ e : OutEnv, (∀ j, e.answerAt j = .wait) ∧ u = { s with outEnv := e }

theorem State.InputWaits.step {s u u' : State} {a : Operand} (hr : s.runState = .running)
    (hf : s.fetchInstr = .ok (.inp a)) (hu : s.InputWaits u) (h : step u = .next u') : s.InputWaits u' := by
  obtain ⟨e, hwait, rfl⟩ := hu
  have hfetch := (fetchSeesOnlyPcAndMemory { s with inEnv := e } s rfl rfl).trans hf
  rw [step_of_in_wait (s := { s with inEnv := e }) hr hfetch (e.answerAt_zero ▸ hwait 0)] at h
  exact ⟨e.next, fun j => (e.answerAt_next j).trans (hwait _), next_inj h⟩

theorem State.OutputWaits.step {s u u' : State} {a : Operand} (hr : s.runState = .running)
    (hf : s.fetchInstr = .ok (.out a)) (ha : s.readable a = true) (hu : s.OutputWaits u) (h : step u = .next u') :
    s.OutputWaits u' := by
  obtain ⟨e, hwait, rfl⟩ := hu
  have hfetch := (fetchSeesOnlyPcAndMemory { s with outEnv := e } s rfl rfl).trans hf
  rw [step_of_out_wait (s := { s with outEnv := e }) hr hfetch ha (e.answerAt_zero ▸ hwait 0)] at h
  exact ⟨e.next, fun j => (e.answerAt_next j).trans (hwait _), next_inj h⟩

/-- Settles O45: each attempt moves on an environment that goes on answering `wait`; the one that always waits stays. -/
theorem endlessWaitStallsForEver : Obligations.EndlessWaitStallsForEver := by
  refine fun s a k hr => ⟨fun hf he => ?_, fun hf ha he => ?_, fun hf hw => ?_, fun hf ha hw => ?_⟩
  · refine runSteps_of_step_self ?_ k
    rw [step_of_in_wait hr hf (by rw [he]; rfl), he, InEnv.next_nil, InRest.next, ← he]
  · refine runSteps_of_step_self ?_ k
    rw [step_of_out_wait hr hf ha (by rw [he]; rfl), he, OutEnv.next_nil, OutRest.next, ← he]
  · obtain ⟨_, ht, e, _, rfl⟩ := runSteps_keeps (fun _ _ => State.InputWaits.step hr hf) k ⟨s.inEnv, hw, rfl⟩
    exact ⟨e, ht⟩
  · obtain ⟨_, ht, e, _, rfl⟩ := runSteps_keeps (fun _ _ => State.OutputWaits.step hr hf ha) k ⟨s.outEnv, hw, rfl⟩
    exact ⟨e, ht⟩

/-! ### An input that never ends (R95, R126) -/

/-- R95, R126: the input never ends, and has not been found at its end. -/
def State.InputEndless (s : State) : Prop :=
  s.cause ≠ some .inputExhausted ∧ ∀ j, s.inEnv.answerAt j ≠ .ended

theorem step_inputEndless {s t : State} (hs : s.InputEndless) (h : step s = .next t) : t.InputEndless := by
  obtain ⟨hcause, hanswers⟩ := hs
  refine ⟨?_, fun j => ?_⟩
  · obtain ⟨_, rfl⟩ | ⟨_, ⟨f, hf, rfl⟩ | ⟨i, _, he⟩⟩ := step_next h
    · exact hcause
    · simpa using State.fetchInstr_error_kind hf
    · have hanswer : s.inAnswer ≠ .ended := fun hended => hanswers 0 (s.inEnv.answerAt_zero.trans hended)
      exact (exec_effect he).cause_ne_inputExhausted hanswer hcause
  · obtain ⟨_, henv⟩ | ⟨_, _, henv⟩ := step_inEnv h
    · rw [henv]
      exact hanswers j
    · rw [henv, InEnv.answerAt_next]
      exact hanswers (j + 1)

/-- Settles O35: every step keeps an endless input endless. -/
theorem endlessInputNeverExhausts : Obligations.EndlessInputNeverExhausts := by
  intro k s t hanswers hcause h
  obtain ⟨u, hu, hend⟩ := runSteps_keeps (fun _ _ => step_inputEndless) k ⟨hcause, hanswers⟩
  exact next_inj (hu.symm.trans h) ▸ hend

/-! ### The traffic of a run (R99) -/

/-- R99: the words sent grow by what the step delivers. -/
theorem step_sent_eq {s t : State} (h : step s = .next t) : t.sent = s.sent ++ s.stepSends := by
  by_cases hc : ∃ a, s.runState = .running ∧ s.fetchInstr = .ok (.out a) ∧ s.readable a = true ∧ s.outAnswer = .accept
  · obtain ⟨a, hr, hf, ha, ho⟩ := hc
    rw [step_sent_of_accept h hr hf ha ho]
    simp [State.stepSends, hr, hf, ha, ho]
  · have hnone : s.stepSends = [] := by
      unfold State.stepSends
      split
      · rename_i a hr hf
        exact if_neg fun ⟨ha, ho⟩ => hc ⟨a, hr, hf, ha, ho⟩
      · rfl
    rw [hnone, List.append_nil]
    exact (step_sent h).resolve_right hc

/-- R99: a step that is no in receives nothing. -/
theorem State.stepReceives_of_no_in {s : State} (h : ∀ a, s.runState = .running → s.fetchInstr ≠ .ok (.inp a)) :
    s.stepReceives = [] := by
  unfold State.stepReceives
  split
  · rename_i a v hr hf _
    exact absurd hf (h a hr)
  · rfl

/-- R99: an in receives the word of its answer, if that has one. -/
theorem State.stepReceives_of_in {s : State} {a : Operand} (hr : s.runState = .running)
    (hf : s.fetchInstr = .ok (.inp a)) : s.stepReceives = s.inEnv.words 1 := by
  rw [InEnv.words_succ]
  simp only [State.stepReceives, hr, hf, State.inAnswer]
  cases s.inEnv.answer <;> rfl

/-- R99: the words received in a step are those of the answers it takes. -/
theorem step_receives {s t : State} (h : step s = .next t) :
    ∃ n ≤ 1, s.stepReceives = s.inEnv.words n ∧ ∀ j, t.inEnv.answerAt j = s.inEnv.answerAt (j + n) := by
  obtain ⟨hno, henv⟩ | ⟨hr, ⟨a, hf⟩, henv⟩ := step_inEnv h
  · exact ⟨0, Nat.zero_le 1, State.stepReceives_of_no_in hno, fun j => by rw [henv, Nat.add_zero]⟩
  · exact ⟨1, le_rfl, State.stepReceives_of_in hr hf, fun j => by rw [henv, InEnv.answerAt_next]⟩

/-- R99: the words among more answers are those among the first of them and those among the others. -/
theorem InEnv.words_add {e f : InEnv} {n : Nat} (h : ∀ j, f.answerAt j = e.answerAt (j + n)) (m : Nat) :
    e.words (n + m) = e.words n ++ f.words m := by
  simp only [InEnv.words_eq, List.range_add, List.filterMap_append, List.filterMap_map, h, Function.comp_def,
    Nat.add_comm]

theorem runSends_succ {k : Nat} {s u : State} (h : step s = .next u) :
    runSends (k + 1) s = s.stepSends ++ runSends k u := by
  simp only [runSends, h]

theorem runReceives_succ {k : Nat} {s u : State} (h : step s = .next u) :
    runReceives (k + 1) s = s.stepReceives ++ runReceives k u := by
  simp only [runReceives, h]

/-- Settles O51: the traffic of the first step, then that of the others. -/
theorem portSequencesOverRuns : Obligations.PortSequencesOverRuns := by
  intro k
  induction k with
  | zero =>
    intro s t h
    obtain rfl := next_inj h
    exact ⟨(List.append_nil _).symm, 0, le_rfl, rfl, fun _ => rfl⟩
  | succ k ih =>
    intro s t h
    obtain ⟨u, hu⟩ := everyStepAnswersANextState s
    rw [runSteps_succ hu] at h
    obtain ⟨hsent, m, hm, hreceived, hrest⟩ := ih u t h
    obtain ⟨n, hn, hfirst, hmoved⟩ := step_receives hu
    refine ⟨?_, n + m, by omega, ?_, fun j => ?_⟩
    · rw [hsent, step_sent_eq hu, runSends_succ hu, List.append_assoc]
    · rw [runReceives_succ hu, hfirst, hreceived, InEnv.words_add hmoved]
    · rw [hrest, hmoved, Nat.add_right_comm, Nat.add_assoc]

end Sys2Proof.Machine

/-!
PROOFS. Waits delay steps and change no outcome (spec/40_step_and_operands.md R82, R84): sequences of answers with some waits
left out, and the run that skips the stalls. A relation on environments is enough for it in which the one side either gives a
wait that the other skips, or both give the same answer.
-/

namespace Sys2Proof.Machine

/-! ### Sequences with some of the answers `w` left out -/

/-- R84: `b` is `a` with some of the places that hold `w` left out; `pick` says which place of `a` each one of `b` is. -/
def OmitsOnly {α : Type} (w : α) (a b : Nat → α) : Prop :=
  ∃ pick : Nat → Nat, StrictMono pick ∧ (∀ k, b k = a (pick k)) ∧ ∀ n, (∀ k, pick k ≠ n) → a n = w

section
variable {α : Type} {w : α} {a b : Nat → α}

theorem OmitsOnly.refl (w : α) (a : Nat → α) : OmitsOnly w a a :=
  ⟨id, strictMono_id, fun _ => rfl, fun n h => absurd rfl (h n)⟩

/-- The places of `a` from 1 on, when `pick` names only such. -/
theorem OmitsOnly.tail_of_pos {pick : Nat → Nat} (hmono : StrictMono pick) (hpos : ∀ k, 0 < pick k)
    (hb : ∀ k, b k = a (pick k)) (hw : ∀ n, (∀ k, pick k ≠ n + 1) → a (n + 1) = w) :
    OmitsOnly w (fun k => a (k + 1)) b := by
  refine ⟨fun k => pick k - 1, fun k l hkl => ?_, fun k => ?_, fun n hn => hw n fun k hk => hn k (by simp [hk])⟩
  · have := hmono hkl
    have := hpos k
    show pick k - 1 < pick l - 1
    omega
  · exact (hb k).trans (congrArg a (Nat.sub_add_cancel (hpos k)).symm)

/-- The first place of `a` is one that was left out, or it is the first of `b`. -/
theorem OmitsOnly.cases_head (h : OmitsOnly w a b) :
    (a 0 = w ∧ OmitsOnly w (fun k => a (k + 1)) b) ∨
      (b 0 = a 0 ∧ OmitsOnly w (fun k => a (k + 1)) (fun k => b (k + 1))) := by
  obtain ⟨pick, hmono, hb, hw⟩ := h
  have hle (k : Nat) : pick 0 ≤ pick k := hmono.monotone (Nat.zero_le k)
  by_cases h0 : pick 0 = 0
  · refine .inr ⟨by rw [hb, h0], OmitsOnly.tail_of_pos (pick := fun k => pick (k + 1))
      (fun k l hkl => hmono (by omega)) (fun k => h0 ▸ hmono k.succ_pos) (fun k => hb (k + 1)) fun n hn => hw _ fun k => ?_⟩
    cases k with
    | zero => omega
    | succ k => exact hn k
  · have hpos (k : Nat) : 0 < pick k := Nat.lt_of_lt_of_le (Nat.pos_of_ne_zero h0) (hle k)
    exact .inl ⟨hw 0 fun k => (hpos k).ne', OmitsOnly.tail_of_pos hmono hpos hb fun n => hw (n + 1)⟩

/-- A first `w` may be left out. -/
theorem OmitsOnly.skip (h0 : a 0 = w) (h : OmitsOnly w (fun k => a (k + 1)) b) : OmitsOnly w a b := by
  obtain ⟨pick, hmono, hb, hw⟩ := h
  refine ⟨fun k => pick k + 1, fun k l hkl => Nat.succ_lt_succ (hmono hkl), hb, fun n hn => ?_⟩
  cases n with
  | zero => exact h0
  | succ n => exact hw n fun k hk => hn k (congrArg Nat.succ hk)

/-- The places named when a first one is kept and `pick` names the others. -/
def pickFirst (pick : Nat → Nat) : Nat → Nat
  | 0 => 0
  | k + 1 => pick k + 1

/-- A first place may be kept. -/
theorem OmitsOnly.keep (h0 : b 0 = a 0) (h : OmitsOnly w (fun k => a (k + 1)) (fun k => b (k + 1))) :
    OmitsOnly w a b := by
  obtain ⟨pick, hmono, hb, hw⟩ := h
  refine ⟨pickFirst pick, strictMono_nat_of_lt_succ fun k => ?_, fun k => ?_, fun n hn => ?_⟩
  · cases k with
    | zero => exact Nat.succ_pos _
    | succ k => exact Nat.succ_lt_succ (hmono k.lt_succ_self)
  · cases k with
    | zero => exact h0
    | succ k => exact hb k
  · cases n with
    | zero => exact absurd rfl (hn 0)
    | succ n => exact hw n fun k hk => hn (k + 1) (congrArg Nat.succ hk)

end

/-! ### Environments with some waits left out (R84) -/

theorem InEnv.sameButForWaits_iff (e f : InEnv) : e.SameButForWaits f ↔ OmitsOnly .wait e.answerAt f.answerAt := Iff.rfl

theorem OutEnv.sameButForWaits_iff (e f : OutEnv) : e.SameButForWaits f ↔ OmitsOnly .wait e.answerAt f.answerAt := Iff.rfl

theorem InEnv.answerAt_next_eq (e : InEnv) : e.next.answerAt = fun k => e.answerAt (k + 1) := funext e.answerAt_next

theorem OutEnv.answerAt_next_eq (e : OutEnv) : e.next.answerAt = fun k => e.answerAt (k + 1) := funext e.answerAt_next

/-- R84: each answer is a wait that the other environment leaves out, or is given by both. -/
def InSkips (R : InEnv → InEnv → Prop) : Prop :=
  ∀ e f, R e f → (e.answer = .wait ∧ R e.next f) ∨ (f.answer = e.answer ∧ R e.next f.next)

/-- R84: the same of output environments. -/
def OutSkips (R : OutEnv → OutEnv → Prop) : Prop :=
  ∀ e f, R e f → (e.answer = .wait ∧ R e.next f) ∨ (f.answer = e.answer ∧ R e.next f.next)

theorem InEnv.sameButForWaits_skips : InSkips InEnv.SameButForWaits := fun e f h => by
  simpa only [InEnv.sameButForWaits_iff, InEnv.answerAt_next_eq, InEnv.answerAt_zero] using OmitsOnly.cases_head h

theorem OutEnv.sameButForWaits_skips : OutSkips OutEnv.SameButForWaits := fun e f h => by
  simpa only [OutEnv.sameButForWaits_iff, OutEnv.answerAt_next_eq, OutEnv.answerAt_zero] using OmitsOnly.cases_head h

/-- R84: a listed wait at the front is skipped; any other answer stays at the front. -/
theorem InEnv.withoutWaits_cases (e : InEnv) :
    (e.answer = .wait ∧ e.next.withoutWaits = e.withoutWaits) ∨
      (e.withoutWaits.answer = e.answer ∧ e.withoutWaits.next = e.next.withoutWaits) := by
  obtain ⟨_ | ⟨_ | _, xs⟩, r⟩ := e
  · exact .inr ⟨rfl, rfl⟩
  · exact .inr ⟨rfl, rfl⟩
  · exact .inl ⟨rfl, rfl⟩

/-- R84: a listed wait at the front is skipped; any other answer stays at the front. -/
theorem OutEnv.withoutWaits_cases (e : OutEnv) :
    (e.answer = .wait ∧ e.next.withoutWaits = e.withoutWaits) ∨
      (e.withoutWaits.answer = e.answer ∧ e.withoutWaits.next = e.next.withoutWaits) := by
  obtain ⟨_ | ⟨_ | _, xs⟩, r⟩ := e
  · exact .inr ⟨rfl, rfl⟩
  · exact .inr ⟨rfl, rfl⟩
  · exact .inl ⟨rfl, rfl⟩

theorem InEnv.withoutWaits_skips : InSkips fun e f => f = e.withoutWaits := by
  rintro e _ rfl
  exact e.withoutWaits_cases.imp_left fun ⟨hw, heq⟩ => ⟨hw, heq.symm⟩

theorem OutEnv.withoutWaits_skips : OutSkips fun e f => f = e.withoutWaits := by
  rintro e _ rfl
  exact e.withoutWaits_cases.imp_left fun ⟨hw, heq⟩ => ⟨hw, heq.symm⟩

/-- R84: an environment is so related to what leaving out its listed waits gives, if the one after it is. -/
theorem InEnv.sameButForWaits_withoutWaits_of_next {e : InEnv} (h : e.next.SameButForWaits e.next.withoutWaits) :
    e.SameButForWaits e.withoutWaits := by
  rw [InEnv.sameButForWaits_iff, InEnv.answerAt_next_eq] at h
  obtain ⟨hwait, heq⟩ | ⟨hsame, heq⟩ := e.withoutWaits_cases
  · exact OmitsOnly.skip (e.answerAt_zero.trans hwait) (heq ▸ h)
  · refine OmitsOnly.keep (by rwa [InEnv.answerAt_zero, InEnv.answerAt_zero]) ?_
    rwa [← InEnv.answerAt_next_eq e.withoutWaits, heq]

/-- R84: leaving out the listed waits leaves out waits only. -/
theorem InEnv.sameButForWaits_withoutWaits (e : InEnv) : e.SameButForWaits e.withoutWaits := by
  obtain ⟨xs, r⟩ := e
  induction xs with
  | nil => exact OmitsOnly.refl _ _
  | cons x xs ih => exact InEnv.sameButForWaits_withoutWaits_of_next ih

/-- R84: an environment is so related to what leaving out its listed waits gives, if the one after it is. -/
theorem OutEnv.sameButForWaits_withoutWaits_of_next {e : OutEnv} (h : e.next.SameButForWaits e.next.withoutWaits) :
    e.SameButForWaits e.withoutWaits := by
  rw [OutEnv.sameButForWaits_iff, OutEnv.answerAt_next_eq] at h
  obtain ⟨hwait, heq⟩ | ⟨hsame, heq⟩ := e.withoutWaits_cases
  · exact OmitsOnly.skip (e.answerAt_zero.trans hwait) (heq ▸ h)
  · refine OmitsOnly.keep (by rwa [OutEnv.answerAt_zero, OutEnv.answerAt_zero]) ?_
    rwa [← OutEnv.answerAt_next_eq e.withoutWaits, heq]

/-- R84: leaving out the listed waits leaves out waits only. -/
theorem OutEnv.sameButForWaits_withoutWaits (e : OutEnv) : e.SameButForWaits e.withoutWaits := by
  obtain ⟨xs, r⟩ := e
  induction xs with
  | nil => exact OmitsOnly.refl _ _
  | cons x xs ih => exact OutEnv.sameButForWaits_withoutWaits_of_next ih

/-! ### The step and the run that skip waits (R82, R84) -/

section
variable {RI : InEnv → InEnv → Prop} {RO : OutEnv → OutEnv → Prop}

/-- R82, R84: a step is a stall that the other state skips, or is made in both states. -/
theorem SameCore.step_skips (hRI : InSkips RI) (hRO : OutSkips RO) {s s' u : State} (h : SameCore RI RO Eq s s')
    (hu : Machine.step s = .next u) :
    SameCore RI RO Eq u s' ∨ ∃ u', Machine.step s' = .next u' ∧ SameCore RI RO Eq u u' := by
  by_cases hin : ∃ a, s.runState = .running ∧ s.fetchInstr = .ok (.inp a) ∧ s.inEnv.answer = .wait ∧
      RI s.inEnv.next s'.inEnv
  · obtain ⟨a, hr, hf, hw, hskip⟩ := hin
    rw [step_of_in_wait hr hf hw] at hu
    exact .inl (next_inj hu ▸ { h with inEnv := hskip })
  by_cases hout : ∃ a, s.runState = .running ∧ s.fetchInstr = .ok (.out a) ∧ s.readable a = true ∧
      s.outEnv.answer = .wait ∧ RO s.outEnv.next s'.outEnv
  · obtain ⟨a, hr, hf, ha, hw, hskip⟩ := hout
    rw [step_of_out_wait hr hf ha hw] at hu
    exact .inl (next_inj hu ▸ { h with outEnv := hskip })
  obtain ⟨t, u', ht, hu', hrel⟩ := h.step
    (fun a hr hf => (hRI _ _ h.inEnv).resolve_left fun ⟨hw, hskip⟩ => hin ⟨a, hr, hf, hw, hskip⟩)
    (fun a hr hf ha =>
      have ⟨hanswer, hnext⟩ := (hRO _ _ h.outEnv).resolve_left fun ⟨hw, hskip⟩ => hout ⟨a, hr, hf, ha, hw, hskip⟩
      ⟨hanswer, hnext, fun v => congrArg (· ++ [v]) h.sent⟩)
  exact .inr ⟨u', hu', next_inj (ht.symm.trans hu) ▸ hrel⟩

/-- R84: the run that skips waits is no longer, and its end has the same core. -/
theorem SameCore.runSteps_skips (hRI : InSkips RI) (hRO : OutSkips RO) (k : Nat) {s s' t : State}
    (h : SameCore RI RO Eq s s') (ht : runSteps k s = .next t) :
    ∃ k' ≤ k, ∃ t', runSteps k' s' = .next t' ∧ SameCore RI RO Eq t t' := by
  induction k generalizing s s' with
  | zero =>
    obtain rfl := next_inj ht
    exact ⟨0, le_rfl, s', rfl, h⟩
  | succ k ih =>
    obtain ⟨u, hu⟩ := everyStepAnswersANextState s
    rw [runSteps_succ hu] at ht
    obtain hskip | ⟨u', hu', hboth⟩ := h.step_skips hRI hRO hu
    · obtain ⟨k', hk, t', ht', hrel⟩ := ih hskip ht
      exact ⟨k', by omega, t', ht', hrel⟩
    · obtain ⟨k', hk, t', ht', hrel⟩ := ih hboth ht
      exact ⟨k' + 1, by omega, t', (runSteps_succ hu').trans ht', hrel⟩

end

/-- Settles O58: both ways of leaving waits out are relations of the kind that a run can skip along. -/
theorem waitsDelayButChangeNoOutcome : Obligations.WaitsDelayButChangeNoOutcome := by
  refine ⟨fun k s t e o he ho h => ?_, fun e o => ⟨e.sameButForWaits_withoutWaits, o.sameButForWaits_withoutWaits⟩,
    fun k s t h => ?_⟩
  · have hcore : SameCore InEnv.SameButForWaits OutEnv.SameButForWaits Eq s { s with inEnv := e, outEnv := o } :=
      ⟨rfl, rfl, rfl, rfl, rfl, rfl, he, ho, rfl⟩
    obtain ⟨k', hk, t', ht', hrel⟩ :=
      hcore.runSteps_skips InEnv.sameButForWaits_skips OutEnv.sameButForWaits_skips k h
    refine ⟨k', hk, t'.inEnv, t'.outEnv, hrel.inEnv, hrel.outEnv, ?_⟩
    rw [ht', hrel.eq, ← hrel.sent]
  · have hcore : SameCore (fun e f => f = e.withoutWaits) (fun e f => f = e.withoutWaits) Eq s s.withoutWaits :=
      ⟨rfl, rfl, rfl, rfl, rfl, rfl, rfl, rfl, rfl⟩
    obtain ⟨k', hk, t', ht', hrel⟩ := hcore.runSteps_skips InEnv.withoutWaits_skips OutEnv.withoutWaits_skips k h
    refine ⟨k', hk, ?_⟩
    rw [ht', hrel.eq, hrel.inEnv, hrel.outEnv, ← hrel.sent]
    rfl

end Sys2Proof.Machine
